-- ==== Sys2Proof/Word.lean ====
section
/-! DEFINITION. The characters, lines and words of the encoder (spec/00_scope.md section 5). -/

namespace Sys2Proof

/-- A character: an 8-bit value with its ASCII meaning (R70, D4). -/
abbrev Byte := BitVec 8

/-- A string of characters: a line without its terminator, a token, or an output line (R70). -/
abbrev Line := List Byte

/-- The Instruction Word, 20 bits for every instruction (R45); `W[19]` is its first bit (R33). -/
abbrev Word := BitVec 20

/-- The characters of an ASCII string literal. -/
def ascii (t : String) : Line := t.toList.map fun c => BitVec.ofNat 8 c.toNat

end Sys2Proof
end

