-- ==== Sys2Proof/Config.lean ====
section
/-! DEFINITION. The fixed parameters of the encoder (R6) and the points the source leaves to the
implementer, with the value the spec decides for each (R7). The OPEN parameters COMMENT_MARKER,
LINE_TERMINATOR and LATENCY belong to the environment and no rule of the encoder reads them (U10). -/

namespace Sys2Proof.Config

/-- `REG_MAX`: the largest valid register index (R6). -/
abbrev regMax : Nat := 15

/-- `IMM_W_I`: the immediate width of the I-type class (R6). -/
abbrev immWidthI : Nat := 6

/-- `IMM_W_LS`: the immediate width of the LoadStore class (R6). -/
abbrev immWidthLS : Nat := 10

/-- `IMM_W_J`: the immediate width of the Jump class (R6). -/
abbrev immWidthJ : Nat := 14

/-- `IMM_W_B`: the immediate width of the Branch class (R6). -/
abbrev immWidthB : Nat := 6

/-- `PAD`: the two padding bits of an R-type word (R6). -/
abbrev pad : BitVec 2 := 0b00#2

/-- `HEX_DIGITS`: the number of characters of an Encoded Output Line (R6). -/
abbrev hexDigits : Nat := 5

/-- The register marker, upper-case `R` only (R7, D3). -/
abbrev registerMarker : Byte := 0x52#8

/-- The minus sign that may lead an immediate (R78). -/
abbrev minusSign : Byte := 0x2D#8

/-- The delimiters: comma, space, HT, LF, VT, FF, CR (R70, D5). -/
def delimiters : List Byte := [0x2C#8, 0x20#8, 0x09#8, 0x0A#8, 0x0B#8, 0x0C#8, 0x0D#8]

end Sys2Proof.Config
end

