-- ==== Sys2Proof/Syntax.lean ====
section
/-! DEFINITION. Mnemonics, instruction classes, error kinds and the abstract instruction
(spec/30_encoding.md section 1, R54, R55; spec/60_exceptions.md R170). -/

namespace Sys2Proof

/-- The 18 mnemonics, in the order of the Format Table (R54). -/
inductive Mnemonic where
  | ADD | OR | NAND | SUB | SLL
  | ADDI | ORI | NANDI | SUBI | SLLI
  | LD | ST
  | JUMP
  | BEQ | BLT | BGT | BLE | BGE
  deriving DecidableEq, Repr

/-- The five instruction classes (R55): R-type, I-type, LoadStore, Jump, Branch. -/
inductive InstrClass where
  | R | I | LS | J | B
  deriving DecidableEq, Repr

/-- One entry of the Instruction Format Table (R11). -/
structure FormatEntry where
  opcode : BitVec 6
  cls    : InstrClass
  deriving DecidableEq, Repr

/-- The error kinds (R170). `ioFailure` is reserved for the environment: no function of the model
returns it (R176). -/
inductive ErrorKind where
  | unknownInstruction
  | operandCountMismatch
  | malformedOperand
  | valueOutOfRange
  | ioFailure
  deriving DecidableEq, Repr

/-- What an operand position demands of its token (R74). -/
inductive OperandKind where
  | register
  | immediate (width : Nat)
  deriving DecidableEq, Repr

/-- The abstract instruction, one constructor per row of the opcode table. Register payloads are
natural numbers and immediate payloads integers, not yet range-checked (spec/30_encoding.md section 1).
The argument order is the operand order of R62. -/
inductive Instr where
  | add   (rd rs1 rs2 : Nat)
  | or    (rd rs1 rs2 : Nat)
  | nand  (rd rs1 rs2 : Nat)
  | sub   (rd rs1 rs2 : Nat)
  | sll   (rd rs1 rs2 : Nat)
  | addi  (rd rs1 : Nat) (imm : Int)
  | ori   (rd rs1 : Nat) (imm : Int)
  | nandi (rd rs1 : Nat) (imm : Int)
  | subi  (rd rs1 : Nat) (imm : Int)
  | slli  (rd rs1 : Nat) (imm : Int)
  | ld    (r : Nat) (imm : Int)
  | st    (r : Nat) (imm : Int)
  | jump  (imm : Int)
  | beq   (r1 r2 : Nat) (imm : Int)
  | blt   (r1 r2 : Nat) (imm : Int)
  | bgt   (r1 r2 : Nat) (imm : Int)
  | ble   (r1 r2 : Nat) (imm : Int)
  | bge   (r1 r2 : Nat) (imm : Int)
  deriving DecidableEq, Repr

/-- The mnemonic of an instruction. -/
def Instr.mnemonic : Instr → Mnemonic
  | .add _ _ _   => .ADD
  | .or _ _ _    => .OR
  | .nand _ _ _  => .NAND
  | .sub _ _ _   => .SUB
  | .sll _ _ _   => .SLL
  | .addi _ _ _  => .ADDI
  | .ori _ _ _   => .ORI
  | .nandi _ _ _ => .NANDI
  | .subi _ _ _  => .SUBI
  | .slli _ _ _  => .SLLI
  | .ld _ _      => .LD
  | .st _ _      => .ST
  | .jump _      => .JUMP
  | .beq _ _ _   => .BEQ
  | .blt _ _ _   => .BLT
  | .bgt _ _ _   => .BGT
  | .ble _ _ _   => .BLE
  | .bge _ _ _   => .BGE

end Sys2Proof
end

