-- ==== Sys2Proof/WellFormed.lean ====
section
/-! DEFINITION. The range checks on an abstract instruction: register indices 0 to 15 (R76) and
immediates within the signed range of their field (R80). -/

namespace Sys2Proof

/-- A register index that has a 4-bit field (R76). -/
def regOk (i : Nat) : Bool := decide (i ≤ Config.regMax)

/-- An immediate value that has a `w`-bit two's-complement field (R80). -/
def immOk (w : Nat) (v : Int) : Bool :=
  decide (-(2 : Int) ^ (w - 1) ≤ v) && decide (v ≤ (2 : Int) ^ (w - 1) - 1)

/-- Every operand of the instruction is in range, so that it has an Instruction Word (R60, R156). -/
def Instr.wf : Instr → Bool
  | .add d a b   => regOk d && regOk a && regOk b
  | .or d a b    => regOk d && regOk a && regOk b
  | .nand d a b  => regOk d && regOk a && regOk b
  | .sub d a b   => regOk d && regOk a && regOk b
  | .sll d a b   => regOk d && regOk a && regOk b
  | .addi d a v  => regOk d && regOk a && immOk Config.immWidthI v
  | .ori d a v   => regOk d && regOk a && immOk Config.immWidthI v
  | .nandi d a v => regOk d && regOk a && immOk Config.immWidthI v
  | .subi d a v  => regOk d && regOk a && immOk Config.immWidthI v
  | .slli d a v  => regOk d && regOk a && immOk Config.immWidthI v
  | .ld r v      => regOk r && immOk Config.immWidthLS v
  | .st r v      => regOk r && immOk Config.immWidthLS v
  | .jump v      => immOk Config.immWidthJ v
  | .beq a b v   => regOk a && regOk b && immOk Config.immWidthB v
  | .blt a b v   => regOk a && regOk b && immOk Config.immWidthB v
  | .bgt a b v   => regOk a && regOk b && immOk Config.immWidthB v
  | .ble a b v   => regOk a && regOk b && immOk Config.immWidthB v
  | .bge a b v   => regOk a && regOk b && immOk Config.immWidthB v

end Sys2Proof
end

