-- ==== Sys2Proof/Decode.lean ====
section
/-! DEFINITION. The front end, which decodes any line of bytes into an abstract instruction or
rejects it under an error kind (R70 to R75, R78, R83, R84, R155); its inverse, the printed form
(R64); and, for the host's interface and for statements only, the decoder and encoder of 20-bit words
that spec/opcode_table.json makes possible (R60; the hardware itself has no word decoder, R5). -/

namespace Sys2Proof

/-! ### The Instruction Format Table -/

/-- `FMT`: the opcode and class of each mnemonic (R11, R54). -/
def fmt : Mnemonic → FormatEntry
  | .ADD   => ⟨0b000000#6, .R⟩
  | .OR    => ⟨0b000001#6, .R⟩
  | .NAND  => ⟨0b000010#6, .R⟩
  | .SUB   => ⟨0b000011#6, .R⟩
  | .SLL   => ⟨0b000100#6, .R⟩
  | .ADDI  => ⟨0b000101#6, .I⟩
  | .ORI   => ⟨0b000110#6, .I⟩
  | .NANDI => ⟨0b000111#6, .I⟩
  | .SUBI  => ⟨0b001000#6, .I⟩
  | .SLLI  => ⟨0b001001#6, .I⟩
  | .LD    => ⟨0b001010#6, .LS⟩
  | .ST    => ⟨0b001011#6, .LS⟩
  | .JUMP  => ⟨0b001100#6, .J⟩
  | .BEQ   => ⟨0b001101#6, .B⟩
  | .BLT   => ⟨0b001110#6, .B⟩
  | .BGT   => ⟨0b001111#6, .B⟩
  | .BLE   => ⟨0b010000#6, .B⟩
  | .BGE   => ⟨0b010001#6, .B⟩

/-- The spelling of each mnemonic (R54). -/
def spelling : Mnemonic → Line
  | .ADD   => ascii "ADD"
  | .OR    => ascii "OR"
  | .NAND  => ascii "NAND"
  | .SUB   => ascii "SUB"
  | .SLL   => ascii "SLL"
  | .ADDI  => ascii "ADDI"
  | .ORI   => ascii "ORI"
  | .NANDI => ascii "NANDI"
  | .SUBI  => ascii "SUBI"
  | .SLLI  => ascii "SLLI"
  | .LD    => ascii "LD"
  | .ST    => ascii "ST"
  | .JUMP  => ascii "JUMP"
  | .BEQ   => ascii "BEQ"
  | .BLT   => ascii "BLT"
  | .BGT   => ascii "BGT"
  | .BLE   => ascii "BLE"
  | .BGE   => ascii "BGE"

/-- The 18 entries of the closed table, in its order (R54, R65). -/
def mnemonics : List Mnemonic :=
  [.ADD, .OR, .NAND, .SUB, .SLL, .ADDI, .ORI, .NANDI, .SUBI, .SLLI, .LD, .ST, .JUMP,
   .BEQ, .BLT, .BGT, .BLE, .BGE]

/-- The operand positions a class requires, left to right (R74). -/
def operandKinds : InstrClass → List OperandKind
  | .R  => [.register, .register, .register]
  | .I  => [.register, .register, .immediate Config.immWidthI]
  | .LS => [.register, .immediate Config.immWidthLS]
  | .J  => [.immediate Config.immWidthJ]
  | .B  => [.register, .register, .immediate Config.immWidthB]

/-! ### Characters and tokens -/

/-- A delimiter character (R70). -/
def isDelim (c : Byte) : Bool := Config.delimiters.contains c

/-- A decimal digit `'0'` to `'9'` (R75, R78). -/
def isDigit (c : Byte) : Bool := decide (0x30#8 ≤ c) && decide (c ≤ 0x39#8)

/-- The value of a decimal digit. -/
def digitValue (c : Byte) : Nat := c.toNat - 48

/-- The loop of R71: `cur` is the token being read. -/
def tokensFrom (cur : Line) : Line → List Line
  | [] => if cur = [] then [] else [cur]
  | c :: cs =>
    if isDelim c then
      if cur = [] then tokensFrom [] cs else cur :: tokensFrom [] cs
    else tokensFrom (cur ++ [c]) cs

/-- `Tokens(line)`: the maximal runs of non-delimiters, in order (R71). -/
def tokens (line : Line) : List Line := tokensFrom [] line

/-- One character of `Upper`: `'a'` to `'z'` only (R72). -/
def upperByte (c : Byte) : Byte :=
  if 0x61#8 ≤ c ∧ c ≤ 0x7A#8 then c - 0x20#8 else c

/-- `Upper(s)` (R72). -/
def upper (t : Line) : Line := t.map upperByte

/-- `Lookup(toks)`: token 0, upper-cased, is one of the 18 spellings or the line is an
`UnknownInstruction` (R73). -/
def lookup : List Line → Except ErrorKind Mnemonic
  | [] => .error .unknownInstruction
  | t :: _ =>
    match mnemonics.find? fun m => spelling m == upper t with
    | some m => .ok m
    | none   => .error .unknownInstruction

/-! ### Operand tokens -/

/-- The digit loop of `ParseReg` and `ParseImm` (R75, R78). -/
def parseDigits (n : Nat) : Line → Except ErrorKind Nat
  | [] => .ok n
  | c :: cs =>
    if isDigit c then parseDigits (10 * n + digitValue c) cs else .error .malformedOperand

/-- `ParseReg(tok)`: `R` followed by one or more decimal digits (R75). -/
def parseReg : Line → Except ErrorKind Nat
  | c :: d :: ds =>
    if c = Config.registerMarker then parseDigits 0 (d :: ds) else .error .malformedOperand
  | _ => .error .malformedOperand

/-- The digits of `ParseImm` after the optional minus sign: at least one (R78). -/
def parseMagnitude : Line → Except ErrorKind Nat
  | [] => .error .malformedOperand
  | d :: ds => parseDigits 0 (d :: ds)

/-- `ParseImm(tok)`: an optional minus sign and one or more decimal digits (R78). -/
def parseImm : Line → Except ErrorKind Int
  | [] => .error .malformedOperand
  | c :: cs =>
    if c = Config.minusSign then (parseMagnitude cs).map fun n => -(n : Int)
    else (parseMagnitude (c :: cs)).map fun n => (n : Int)

/-- Operand position `k` where the class has a register; a missing token is a count error (R83). -/
def regAt (toks : List Line) (k : Nat) : Except ErrorKind Nat :=
  match toks[k]? with
  | some t => parseReg t
  | none   => .error .operandCountMismatch

/-- Operand position `k` where the class has an immediate; a missing token is a count error (R83). -/
def immAt (toks : List Line) (k : Nat) : Except ErrorKind Int :=
  match toks[k]? with
  | some t => parseImm t
  | none   => .error .operandCountMismatch

/-! ### One line, by class: positions are read left to right and the first failure is the result
(R155, R178); later tokens are not read (R84) -/

/-- Operands of a line of class R. -/
def parseR (mk : Nat → Nat → Nat → Instr) (toks : List Line) : Except ErrorKind Instr := do
  let d ← regAt toks 1
  let a ← regAt toks 2
  let b ← regAt toks 3
  return mk d a b

/-- Operands of a line of class I or B: two registers and an immediate. -/
def parseRRI (mk : Nat → Nat → Int → Instr) (toks : List Line) : Except ErrorKind Instr := do
  let d ← regAt toks 1
  let a ← regAt toks 2
  let v ← immAt toks 3
  return mk d a v

/-- Operands of a line of class LS. -/
def parseLS (mk : Nat → Int → Instr) (toks : List Line) : Except ErrorKind Instr := do
  let r ← regAt toks 1
  let v ← immAt toks 2
  return mk r v

/-- Operand of a line of class J. -/
def parseJ (mk : Int → Instr) (toks : List Line) : Except ErrorKind Instr := do
  let v ← immAt toks 1
  return mk v

/-- The operands of a line whose mnemonic is known (R155). -/
def parseOperands : Mnemonic → List Line → Except ErrorKind Instr
  | .ADD   => parseR .add
  | .OR    => parseR .or
  | .NAND  => parseR .nand
  | .SUB   => parseR .sub
  | .SLL   => parseR .sll
  | .ADDI  => parseRRI .addi
  | .ORI   => parseRRI .ori
  | .NANDI => parseRRI .nandi
  | .SUBI  => parseRRI .subi
  | .SLLI  => parseRRI .slli
  | .LD    => parseLS .ld
  | .ST    => parseLS .st
  | .JUMP  => parseJ .jump
  | .BEQ   => parseRRI .beq
  | .BLT   => parseRRI .blt
  | .BGT   => parseRRI .bgt
  | .BLE   => parseRRI .ble
  | .BGE   => parseRRI .bge

/-- `ParseLine(line)`: any bytes to an instruction, or the error kind that rejects them (R155). It
checks no range. -/
def parseLine (line : Line) : Except ErrorKind Instr := do
  let m ← lookup (tokens line)
  parseOperands m (tokens line)

/-! ### The printed form -/

/-- The decimal digits of `n`, most significant first, in front of `acc`; `fuel` bounds the number of
digits. -/
def digitsFrom : (fuel n : Nat) → (acc : Line) → Line
  | 0, _, acc => acc
  | fuel + 1, n, acc =>
    let acc := BitVec.ofNat 8 (48 + n % 10) :: acc
    if n / 10 = 0 then acc else digitsFrom fuel (n / 10) acc

/-- `n` in decimal without leading zeros (R64). -/
def printNat (n : Nat) : Line := digitsFrom (n + 1) n []

/-- A register operand in print: `R` and its index (R64). -/
def printReg (i : Nat) : Line := Config.registerMarker :: printNat i

/-- An immediate operand in print: a leading minus sign only when negative (R64). -/
def printImm (v : Int) : Line :=
  if v < 0 then Config.minusSign :: printNat v.natAbs else printNat v.natAbs

/-- The printed operands: a space before the first, a comma and a space between two (R64). -/
def printOperands (ops : List Line) : Line :=
  (ascii " ") ++ (ops.intersperse (ascii ", ")).flatten

/-- The printed form of a line with mnemonic `m` and printed operands `ops` (R64). -/
def printWith (m : Mnemonic) (ops : List Line) : Line := spelling m ++ printOperands ops

/-- The printed form of an instruction (R64, D26). -/
def printLine : Instr → Line
  | .add d a b   => printWith .ADD [printReg d, printReg a, printReg b]
  | .or d a b    => printWith .OR [printReg d, printReg a, printReg b]
  | .nand d a b  => printWith .NAND [printReg d, printReg a, printReg b]
  | .sub d a b   => printWith .SUB [printReg d, printReg a, printReg b]
  | .sll d a b   => printWith .SLL [printReg d, printReg a, printReg b]
  | .addi d a v  => printWith .ADDI [printReg d, printReg a, printImm v]
  | .ori d a v   => printWith .ORI [printReg d, printReg a, printImm v]
  | .nandi d a v => printWith .NANDI [printReg d, printReg a, printImm v]
  | .subi d a v  => printWith .SUBI [printReg d, printReg a, printImm v]
  | .slli d a v  => printWith .SLLI [printReg d, printReg a, printImm v]
  | .ld r v      => printWith .LD [printReg r, printImm v]
  | .st r v      => printWith .ST [printReg r, printImm v]
  | .jump v      => printWith .JUMP [printImm v]
  | .beq a b v   => printWith .BEQ [printReg a, printReg b, printImm v]
  | .blt a b v   => printWith .BLT [printReg a, printReg b, printImm v]
  | .bgt a b v   => printWith .BGT [printReg a, printReg b, printImm v]
  | .ble a b v   => printWith .BLE [printReg a, printReg b, printImm v]
  | .bge a b v   => printWith .BGE [printReg a, printReg b, printImm v]

/-! ### Words read back through the opcode table
DESIGN CHOICE (log 5): the hardware has no word decoder (R5); this one reads spec/opcode_table.json
backwards, as R60 says is possible. No step of the machine reads a word. -/

/-- Why 20 bits are no Instruction Word: an opcode of no mnemonic (R56), or a format R word whose low
two bits are not `00` (R57). -/
inductive WordError where
  | unassignedOpcode
  | nonzeroPad
  deriving DecidableEq, Repr

/-- The mnemonic of an opcode (R55: the map is injective). -/
def mnemonicOf (opcode : BitVec 6) : Option Mnemonic :=
  mnemonics.find? fun m => (fmt m).opcode == opcode

/-- The register field whose lowest bit is `lo` (R47 to R51). -/
def regBits (w : Word) (lo : Nat) : Nat := (w.extractLsb' lo 4).toNat

/-- The two's-complement value of the low `width` bits (R53). -/
def immBits (w : Word) (width : Nat) : Int := (w.extractLsb' 0 width).toInt

/-- Format R (R47). -/
def readR (mk : Nat → Nat → Nat → Instr) (w : Word) : Except WordError Instr :=
  if w.extractLsb' 0 2 = Config.pad then .ok (mk (regBits w 10) (regBits w 6) (regBits w 2))
  else .error .nonzeroPad

/-- Formats I and B (R48, R51). -/
def readRRI (mk : Nat → Nat → Int → Instr) (w : Word) : Except WordError Instr :=
  .ok (mk (regBits w 10) (regBits w 6) (immBits w 6))

/-- Format LS (R49). -/
def readLS (mk : Nat → Int → Instr) (w : Word) : Except WordError Instr :=
  .ok (mk (regBits w 10) (immBits w 10))

/-- Format J (R50). -/
def readJ (mk : Int → Instr) (w : Word) : Except WordError Instr := .ok (mk (immBits w 14))

/-- The fields of a word whose mnemonic is known. -/
def readFields : Mnemonic → Word → Except WordError Instr
  | .ADD   => readR .add
  | .OR    => readR .or
  | .NAND  => readR .nand
  | .SUB   => readR .sub
  | .SLL   => readR .sll
  | .ADDI  => readRRI .addi
  | .ORI   => readRRI .ori
  | .NANDI => readRRI .nandi
  | .SUBI  => readRRI .subi
  | .SLLI  => readRRI .slli
  | .LD    => readLS .ld
  | .ST    => readLS .st
  | .JUMP  => readJ .jump
  | .BEQ   => readRRI .beq
  | .BLT   => readRRI .blt
  | .BGT   => readRRI .bgt
  | .BLE   => readRRI .ble
  | .BGE   => readRRI .bge

/-- The instruction a 20-bit word stands for, or why there is none. -/
def decodeWord (w : Word) : Except WordError Instr :=
  match mnemonicOf (w.extractLsb' 14 6) with
  | some m => readFields m w
  | none   => .error .unassignedOpcode

/-! ### The words of well-formed instructions, as the sums the rules give
(`uint(W) = …` of R100, R110, R120, R130, R135) -/

/-- `uint(opcode) * 16384 + rd * 1024 + rs1 * 64 + rs2 * 4` (R100). -/
def wordR (m : Mnemonic) (d a b : Nat) : Word :=
  BitVec.ofNat 20 ((fmt m).opcode.toNat * 16384 + d * 1024 + a * 64 + b * 4)

/-- `uint(opcode) * 16384 + rd * 1024 + rs1 * 64 + (imm mod 64)` (R110, R135). -/
def wordRRI (m : Mnemonic) (d a : Nat) (v : Int) : Word :=
  BitVec.ofNat 20 ((fmt m).opcode.toNat * 16384 + d * 1024 + a * 64 + (v % 64).toNat)

/-- `uint(opcode) * 16384 + r * 1024 + (imm mod 1024)` (R120). -/
def wordLS (m : Mnemonic) (r : Nat) (v : Int) : Word :=
  BitVec.ofNat 20 ((fmt m).opcode.toNat * 16384 + r * 1024 + (v % 1024).toNat)

/-- `uint(opcode) * 16384 + (imm mod 16384)` (R130). -/
def wordJ (m : Mnemonic) (v : Int) : Word :=
  BitVec.ofNat 20 ((fmt m).opcode.toNat * 16384 + (v % 16384).toNat)

/-- The Instruction Word of a well-formed instruction; for an ill-formed one the value means nothing
(the machine's own datapath is `Machine.encodeFields`). -/
def encode : Instr → Word
  | .add d a b   => wordR .ADD d a b
  | .or d a b    => wordR .OR d a b
  | .nand d a b  => wordR .NAND d a b
  | .sub d a b   => wordR .SUB d a b
  | .sll d a b   => wordR .SLL d a b
  | .addi d a v  => wordRRI .ADDI d a v
  | .ori d a v   => wordRRI .ORI d a v
  | .nandi d a v => wordRRI .NANDI d a v
  | .subi d a v  => wordRRI .SUBI d a v
  | .slli d a v  => wordRRI .SLLI d a v
  | .ld r v      => wordLS .LD r v
  | .st r v      => wordLS .ST r v
  | .jump v      => wordJ .JUMP v
  | .beq a b v   => wordRRI .BEQ a b v
  | .blt a b v   => wordRRI .BLT a b v
  | .bgt a b v   => wordRRI .BGT a b v
  | .ble a b v   => wordRRI .BLE a b v
  | .bge a b v   => wordRRI .BGE a b v

/-! ### The host's interface -/

/-- The instruction whose bits are `w`, numbered as spec/opcode_table.json numbers them; bits at and
above `nbits` are 0, and a number that does not fit 20 bits is no Instruction Word (R45). -/
def decodeTableWord (nbits w : Nat) : Option Instr :=
  let v := w % 2 ^ nbits
  if v < 2 ^ 20 then (decodeWord (BitVec.ofNat 20 v)).toOption else none

/-- The line that makes the machine run the instruction whose bits are `w`: its printed form. For bits
that are no instruction it is the empty line, the input side's counterpart of an illegal encoding
(R58, D7). DESIGN CHOICE (log 6). -/
def lineOfTableWord (nbits w : Nat) : Line :=
  match decodeTableWord nbits w with
  | some i => printLine i
  | none   => []

end Sys2Proof
end

