-- ==== Sys2Proof/Machine/Operands.lean ====
section
/-! DEFINITION. The two leaf encoders, from an operand's value to its field: the Register Encoder's
field (R52, R76) and the Immediate Encoder's field (R53, R79, R80). -/

namespace Sys2Proof.Machine

/-- `bin_n(k)`: the `n`-bit vector of value `k`, for `k < 2^n` (spec/00_scope.md section 5). -/
def bin (n k : Nat) : BitVec n := BitVec.ofNat n k

/-- `RegField(i)` (R76). -/
def regField (i : Nat) : Except ErrorKind (BitVec 4) :=
  if i ≤ Config.regMax then .ok (bin 4 i) else .error .valueOutOfRange

/-- `ImmField(w, v)`; the sum `2^w + v` is over the integers (R80, R81). -/
def immField (w : Nat) (v : Int) : Except ErrorKind (BitVec w) :=
  if v < -(2 : Int) ^ (w - 1) ∨ v > (2 : Int) ^ (w - 1) - 1 then .error .valueOutOfRange
  else if v < 0 then .ok (bin w ((2 : Int) ^ w + v).toNat)
  else .ok (bin w v.toNat)

end Sys2Proof.Machine
end

