-- ==== Sys2Proof/Machine/Hex.lean ====
section
/-! DEFINITION. The Binary-to-Hex Renderer (R145, R146), total on all 20-bit words (R147). -/

namespace Sys2Proof.Machine

/-- `HexDigit(d)`: `'0'` to `'9'`, then upper-case `'A'` to `'F'` (R146). -/
def hexDigit (d : BitVec 4) : Byte :=
  if d.toNat < 10 then BitVec.ofNat 8 (0x30 + d.toNat) else BitVec.ofNat 8 (0x41 + (d.toNat - 10))

/-- `Hex(W)`: five digits, the one of `W[19:16]` first (R34, R145). -/
def hex (w : Word) : Line :=
  [hexDigit (w.extractLsb' 16 4), hexDigit (w.extractLsb' 12 4), hexDigit (w.extractLsb' 8 4),
   hexDigit (w.extractLsb' 4 4), hexDigit (w.extractLsb' 0 4)]

end Sys2Proof.Machine
end

