-- ==== Sys2Proof/Machine/State.lean ====
section
/-! DEFINITION. The run sequencer's state (R15), why a step can stop, and the state after reset (R19).
The encoder has no registers, program counter, flags or memory (R12, R13, R14, R16, R17, R18), and the
Format Table is a constant, not state (R11). -/

namespace Sys2Proof.Machine

/-- The first error of a run: its kind and the 0-based index of the line that raised it (R15, R170). -/
structure ErrorRecord where
  kind  : ErrorKind
  index : Nat
  deriving DecidableEq, Repr

/-- The state of a run (R15), and the environment's lines.

`input` is the model's own field (DESIGN CHOICE, log 1): the lines the environment has still to
present, the next one first (R31). Its head stays in place until it has been consumed, so a failing
line is still its head (log 4). -/
structure State where
  /-- The number of lines consumed so far in this run. -/
  idx   : Nat
  /-- The Encoded Output Lines produced so far, in order. -/
  out   : List Line
  /-- The first error of the run. -/
  fault : Option ErrorRecord
  /-- The environment's lines not yet consumed. -/
  input : List Line
  deriving DecidableEq, Repr

/-- Why the machine stops. -/
inductive Fault where
  /-- Raised by every step and every meaning in a state whose `fault` is set: the sequencer has no
  step there (R15, R179, R181). It carries the run's result, the recorded error. Safe: the machine
  stops where the hardware stops (log 3). -/
  | runAborted (kind : ErrorKind) (index : Nat)
  deriving DecidableEq, Repr

/-- Why a step has no meaning. -/
inductive Refusal where
  /-- Raised by an arm of `exec` whose instruction has no meaning yet; no arm does. Safe. -/
  | notModelled (mnemonic : String)
  /-- Raised by a step when `fault = none` and the environment presents no line: every line has been
  consumed and the run has succeeded (R22). Safe: the hardware has no step there either (log 3). -/
  | noLinePresented
  deriving DecidableEq, Repr

/-- The machine right after reset (R19, R200, D13). No line is presented: DESIGN CHOICE (log 1). -/
def State.reset : State := { idx := 0, out := [], fault := none, input := [] }

end Sys2Proof.Machine
end

