-- ==== Sys2Proof/Machine/Ops.lean ====
section
/-! DEFINITION. What the run sequencer does with the result of a line (R15): emit its output line, or
take its error, the one shared operation every error goes through (R179). There is no return from an
error; the only way on is reset, the start of a new run (R181, R200). -/

namespace Sys2Proof.Machine

/-- The line encoded to `w`: it is consumed and its output line appended (R15). -/
def emit (w : Word) (s : State) : State :=
  { s with idx := s.idx + 1, out := s.out ++ [hex w], input := s.input.tail }

/-- Taking an error: its kind and the index of the failing line are recorded; `out` and `idx` keep
their values and no line is consumed (R15, R179). -/
def raiseError (k : ErrorKind) (s : State) : State := { s with fault := some ⟨k, s.idx⟩ }

/-- The sequencer's step with the result of the line: none once `fault` is set (R15, R181), else
emit the word or take the error. -/
def deliver (r : Except ErrorKind Word) (s : State) : Host.Outcome State Fault Refusal :=
  match s.fault with
  | some e => .fault (.runAborted e.kind e.index)
  | none =>
    match r with
    | .ok w    => .next (emit w s)
    | .error k => .next (raiseError k s)

/-- The event `reset`, at any time: a new run over the lines then given; nothing of the earlier run
survives (R20, R181, R200). -/
def startRun (lines : List Line) (_ : State) : State := { State.reset with input := lines }

/-- The environment presents `line` as the next one (R31). -/
def presentLine (line : Line) (s : State) : State := { s with input := line :: s.input }

/-- One step of the sequencer, given how an instruction is run: no step once `fault` is set, none
without a line; a line that does not parse takes its error; otherwise the parsed instruction runs
(R15, R22, R157). -/
def stepWith (run : Instr → State → Host.Outcome State Fault Refusal) (s : State) :
    Host.Outcome State Fault Refusal :=
  match s.fault with
  | some e => .fault (.runAborted e.kind e.index)
  | none =>
    match s.input with
    | [] => .refused .noLinePresented
    | line :: _ =>
      match parseLine line with
      | .ok i    => run i s
      | .error k => deliver (.error k) s

end Sys2Proof.Machine
end

