-- ==== Sys2Proof/Machine/Branch.lean ====
section
/-! DEFINITION. The Branch instructions BEQ, BLT, BGT, BLE, BGE (spec/45_branch.md). They compare
nothing and transfer no control. -/

namespace Sys2Proof.Machine

/-- Format B: `opcode ++ RegField(r1) ++ RegField(r2) ++ ImmField(6, imm)` (R51, R135, R156). -/
def encodeB (m : Mnemonic) (r1 r2 : Nat) (imm : Int) : Except ErrorKind Word := do
  let a ← regField r1
  let b ← regField r2
  let v ← immField Config.immWidthB imm
  return (fmt m).opcode ++ a ++ b ++ v

/-- BEQ (R136). -/
def execBeq (r1 r2 : Nat) (imm : Int) (s : State) : Host.Outcome State Fault Refusal :=
  deliver (encodeB .BEQ r1 r2 imm) s

/-- BLT (R137); operands are not swapped. -/
def execBlt (r1 r2 : Nat) (imm : Int) (s : State) : Host.Outcome State Fault Refusal :=
  deliver (encodeB .BLT r1 r2 imm) s

/-- BGT (R138); operands are not swapped. -/
def execBgt (r1 r2 : Nat) (imm : Int) (s : State) : Host.Outcome State Fault Refusal :=
  deliver (encodeB .BGT r1 r2 imm) s

/-- BLE (R139). -/
def execBle (r1 r2 : Nat) (imm : Int) (s : State) : Host.Outcome State Fault Refusal :=
  deliver (encodeB .BLE r1 r2 imm) s

/-- BGE (R140). -/
def execBge (r1 r2 : Nat) (imm : Int) (s : State) : Host.Outcome State Fault Refusal :=
  deliver (encodeB .BGE r1 r2 imm) s

end Sys2Proof.Machine
end

