-- ==== Sys2Proof/Machine/IType.lean ====
section
/-! DEFINITION. The I-type instructions ADDI, ORI, NANDI, SUBI, SLLI (spec/42_itype.md). -/

namespace Sys2Proof.Machine

/-- Format I: `opcode ++ RegField(rd) ++ RegField(rs1) ++ ImmField(6, imm)` (R48, R110, R156). -/
def encodeI (m : Mnemonic) (rd rs1 : Nat) (imm : Int) : Except ErrorKind Word := do
  let d ← regField rd
  let a ← regField rs1
  let v ← immField Config.immWidthI imm
  return (fmt m).opcode ++ d ++ a ++ v

/-- ADDI (R111). -/
def execAddi (rd rs1 : Nat) (imm : Int) (s : State) : Host.Outcome State Fault Refusal :=
  deliver (encodeI .ADDI rd rs1 imm) s

/-- ORI (R112). -/
def execOri (rd rs1 : Nat) (imm : Int) (s : State) : Host.Outcome State Fault Refusal :=
  deliver (encodeI .ORI rd rs1 imm) s

/-- NANDI (R113). -/
def execNandi (rd rs1 : Nat) (imm : Int) (s : State) : Host.Outcome State Fault Refusal :=
  deliver (encodeI .NANDI rd rs1 imm) s

/-- SUBI (R114). -/
def execSubi (rd rs1 : Nat) (imm : Int) (s : State) : Host.Outcome State Fault Refusal :=
  deliver (encodeI .SUBI rd rs1 imm) s

/-- SLLI (R115); no shift-count restriction beyond the signed range. -/
def execSlli (rd rs1 : Nat) (imm : Int) (s : State) : Host.Outcome State Fault Refusal :=
  deliver (encodeI .SLLI rd rs1 imm) s

end Sys2Proof.Machine
end

