-- ==== Sys2Proof/Machine/Jump.lean ====
section
/-! DEFINITION. The Jump instruction JUMP (spec/44_jump.md). It transfers no control: `idx` advances
by one as for every other line (R131). -/

namespace Sys2Proof.Machine

/-- Format J: `opcode ++ ImmField(14, imm)` (R50, R130, R156). -/
def encodeJ (m : Mnemonic) (imm : Int) : Except ErrorKind Word := do
  let v ← immField Config.immWidthJ imm
  return (fmt m).opcode ++ v

/-- JUMP (R131). -/
def execJump (imm : Int) (s : State) : Host.Outcome State Fault Refusal :=
  deliver (encodeJ .JUMP imm) s

end Sys2Proof.Machine
end

