-- ==== Sys2Proof/Machine/LoadStore.lean ====
section
/-! DEFINITION. The LoadStore instructions LD, ST (spec/43_loadstore.md). They are encoded, never
executed: no memory is read or written (R30). -/

namespace Sys2Proof.Machine

/-- Format LS: `opcode ++ RegField(r) ++ ImmField(10, imm)` (R49, R120, R156). -/
def encodeLS (m : Mnemonic) (r : Nat) (imm : Int) : Except ErrorKind Word := do
  let d ← regField r
  let v ← immField Config.immWidthLS imm
  return (fmt m).opcode ++ d ++ v

/-- LD (R121). -/
def execLd (r : Nat) (imm : Int) (s : State) : Host.Outcome State Fault Refusal :=
  deliver (encodeLS .LD r imm) s

/-- ST (R122); the operand order is that of LD. -/
def execSt (r : Nat) (imm : Int) (s : State) : Host.Outcome State Fault Refusal :=
  deliver (encodeLS .ST r imm) s

end Sys2Proof.Machine
end

