-- ==== Sys2Proof/Machine/RType.lean ====
section
/-! DEFINITION. The R-type instructions ADD, OR, NAND, SUB, SLL (spec/41_rtype.md). What the machine
does with an instruction is to encode it; there are no execution semantics (R5). -/

namespace Sys2Proof.Machine

/-- Format R: `opcode ++ RegField(rd) ++ RegField(rs1) ++ RegField(rs2) ++ 00` (R47, R100, R156). -/
def encodeR (m : Mnemonic) (rd rs1 rs2 : Nat) : Except ErrorKind Word := do
  let d ← regField rd
  let a ← regField rs1
  let b ← regField rs2
  return (fmt m).opcode ++ d ++ a ++ b ++ Config.pad

/-- ADD (R101). -/
def execAdd (rd rs1 rs2 : Nat) (s : State) : Host.Outcome State Fault Refusal :=
  deliver (encodeR .ADD rd rs1 rs2) s

/-- OR (R102). -/
def execOr (rd rs1 rs2 : Nat) (s : State) : Host.Outcome State Fault Refusal :=
  deliver (encodeR .OR rd rs1 rs2) s

/-- NAND (R103). -/
def execNand (rd rs1 rs2 : Nat) (s : State) : Host.Outcome State Fault Refusal :=
  deliver (encodeR .NAND rd rs1 rs2) s

/-- SUB (R104); the operand order is not commuted. -/
def execSub (rd rs1 rs2 : Nat) (s : State) : Host.Outcome State Fault Refusal :=
  deliver (encodeR .SUB rd rs1 rs2) s

/-- SLL (R105). -/
def execSll (rd rs1 rs2 : Nat) (s : State) : Host.Outcome State Fault Refusal :=
  deliver (encodeR .SLL rd rs1 rs2) s

end Sys2Proof.Machine
end

