-- ==== Sys2Proof/Machine/Dispatch.lean ====
section
/-! DEFINITION. The meaning of each instruction, one arm per constructor. -/

namespace Sys2Proof.Machine

def exec (i : Instr) (s : State) : Host.Outcome State Fault Refusal :=
  match i with
  | .add rd rs1 rs2 => Sys2Proof.Machine.execAdd rd rs1 rs2 s
  | .or rd rs1 rs2 => Sys2Proof.Machine.execOr rd rs1 rs2 s
  | .nand rd rs1 rs2 => Sys2Proof.Machine.execNand rd rs1 rs2 s
  | .sub rd rs1 rs2 => Sys2Proof.Machine.execSub rd rs1 rs2 s
  | .sll rd rs1 rs2 => Sys2Proof.Machine.execSll rd rs1 rs2 s
  | .addi rd rs1 imm => Sys2Proof.Machine.execAddi rd rs1 imm s
  | .ori rd rs1 imm => Sys2Proof.Machine.execOri rd rs1 imm s
  | .nandi rd rs1 imm => Sys2Proof.Machine.execNandi rd rs1 imm s
  | .subi rd rs1 imm => Sys2Proof.Machine.execSubi rd rs1 imm s
  | .slli rd rs1 imm => Sys2Proof.Machine.execSlli rd rs1 imm s
  | .ld r imm => Sys2Proof.Machine.execLd r imm s
  | .st r imm => Sys2Proof.Machine.execSt r imm s
  | .jump imm => Sys2Proof.Machine.execJump imm s
  | .beq r1 r2 imm => Sys2Proof.Machine.execBeq r1 r2 imm s
  | .blt r1 r2 imm => Sys2Proof.Machine.execBlt r1 r2 imm s
  | .bgt r1 r2 imm => Sys2Proof.Machine.execBgt r1 r2 imm s
  | .ble r1 r2 imm => Sys2Proof.Machine.execBle r1 r2 imm s
  | .bge r1 r2 imm => Sys2Proof.Machine.execBge r1 r2 imm s

end Sys2Proof.Machine
end

