-- ==== Sys2Proof/Machine/Step.lean ====
section
/-! DEFINITION. One step of the machine, and the host's way to make its next step run a given
instruction. -/

namespace Sys2Proof.Machine

/-- One step of the run sequencer (R15). -/
def step (s : State) : Host.Outcome State Fault Refusal := stepWith exec s

/-- `s` with the line of the instruction whose bits are `w` presented as the next one. The machine reads
lines of text, not words (R31), so the instruction stands there in its printed form (R64). It stands for
the environment's presenting a line; a `fault` already set is left as it is (log 2, log 6). -/
def State.withFetchWord (s : State) (nbits w : Nat) : State :=
  presentLine (lineOfTableWord nbits w) s

end Sys2Proof.Machine
end

