-- ==== Sys2Proof/Machine/Flags.lean ====
section
/-! DEFINITION. The encoder has no status flags or condition codes and no instruction writes one
(R14). What it has instead is the status it returns with a line: the `ok` bit and the error code
(R160, R170). -/

namespace Sys2Proof.Machine

/-- The code of an error kind (R170, D10). -/
def errorCode : ErrorKind → BitVec 3
  | .unknownInstruction   => 1#3
  | .operandCountMismatch => 2#3
  | .malformedOperand     => 3#3
  | .valueOutOfRange      => 4#3
  | .ioFailure            => 5#3

/-- `ok`: 1 when the line encoded (R160). -/
def okBit {α : Type} : Except ErrorKind α → Bool
  | .ok _    => true
  | .error _ => false

/-- `err_out`: the error code, 0 when the line encoded (R160, R170). -/
def errOut {α : Type} : Except ErrorKind α → BitVec 3
  | .ok _    => 0#3
  | .error k => errorCode k

end Sys2Proof.Machine
end

