-- ==== Sys2Proof/Machine/Encoder.lean ====
section
/-! DEFINITION. The encoder as a whole, without the sequencer: one instruction, one line, one run, and
the ports (spec/47_top_level.md). -/

namespace Sys2Proof.Machine

/-- `EncodeFields(instr)`: the field-level datapath and entry (R156, R161). -/
def encodeFields : Instr → Except ErrorKind Word
  | .add d a b   => encodeR .ADD d a b
  | .or d a b    => encodeR .OR d a b
  | .nand d a b  => encodeR .NAND d a b
  | .sub d a b   => encodeR .SUB d a b
  | .sll d a b   => encodeR .SLL d a b
  | .addi d a v  => encodeI .ADDI d a v
  | .ori d a v   => encodeI .ORI d a v
  | .nandi d a v => encodeI .NANDI d a v
  | .subi d a v  => encodeI .SUBI d a v
  | .slli d a v  => encodeI .SLLI d a v
  | .ld r v      => encodeLS .LD r v
  | .st r v      => encodeLS .ST r v
  | .jump v      => encodeJ .JUMP v
  | .beq a b v   => encodeB .BEQ a b v
  | .blt a b v   => encodeB .BLT a b v
  | .bgt a b v   => encodeB .BGT a b v
  | .ble a b v   => encodeB .BLE a b v
  | .bge a b v   => encodeB .BGE a b v

/-- `EncodeLine(line)`: the word and its hex text, or the line's error (R157). -/
def encodeLine (line : Line) : Except ErrorKind (Word × Line) := do
  let i ← parseLine line
  let w ← encodeFields i
  return (w, hex w)

/-- `EncodeRun` over the lines whose first has index `i` (R158). -/
def encodeRunFrom (i : Nat) : List Line → Except ErrorRecord (List Line)
  | [] => .ok []
  | line :: lines =>
    match encodeLine line with
    | .error k => .error ⟨k, i⟩
    | .ok (_, h) => (encodeRunFrom (i + 1) lines).map fun hs => h :: hs

/-- `EncodeRun(lines)`: one output line per line, or the first error with its index (R158). -/
def encodeRun (lines : List Line) : Except ErrorRecord (List Line) := encodeRunFrom 0 lines

/-- The output ports of one transaction (R160). -/
structure Ports where
  ok      : Bool
  wordOut : Option Word
  hexOut  : Option Line
  errOut  : BitVec 3
  deriving DecidableEq, Repr

/-- The ports as a combinational function of `line_in` (R160). When `ok` is 0, `word_out` and
`hex_out` carry no information: they are `none` here. -/
def transact (line : Line) : Ports :=
  let r := encodeLine line
  { ok := okBit r
    wordOut := r.toOption.map Prod.fst
    hexOut := r.toOption.map Prod.snd
    errOut := errOut r }

end Sys2Proof.Machine
end

