-- ==== Sys2Proof/Safety.lean ====
section
/-! DEFINITION. What a run's states must satisfy, and the words the statements use: the form of an
operand token and of an output line, the value of a digit string, the failure of an operand position. -/

namespace Sys2Proof

/-- The number a string of decimal digits denotes (R75, R78). -/
def decimalValue (ds : Line) : Nat := ds.foldl (fun n c => 10 * n + (c.toNat - 48)) 0

/-- One or more decimal digits `'0'` (0x30) to `'9'` (0x39). -/
def IsDecimal (ds : Line) : Prop := ds ≠ [] ∧ ∀ c ∈ ds, 48 ≤ c.toNat ∧ c.toNat ≤ 57

/-- A Register Reference of index `n`: `R` (0x52) and the decimal digits of `n` (R75). -/
def IsRegToken (t : Line) (n : Nat) : Prop :=
  ∃ ds, t = 0x52#8 :: ds ∧ IsDecimal ds ∧ n = decimalValue ds

/-- An Immediate of value `v`: decimal digits, or a minus sign (0x2D) and decimal digits (R78). -/
def IsImmToken (t : Line) (v : Int) : Prop :=
  (IsDecimal t ∧ v = decimalValue t) ∨
  ∃ ds, t = 0x2D#8 :: ds ∧ IsDecimal ds ∧ v = -(decimalValue ds : Int)

/-- The token has the form its position demands (R74). -/
def FitsPosition (t : Line) : OperandKind → Prop
  | .register    => ∃ n, IsRegToken t n
  | .immediate _ => ∃ v, IsImmToken t v

/-- The token has the form its position demands and a value with no field there (R76, R80). -/
def OutOfRange (t : Line) : OperandKind → Prop
  | .register    => ∃ n, IsRegToken t n ∧ 16 ≤ n
  | .immediate w => ∃ v, IsImmToken t v ∧ (v < -(2 : Int) ^ (w - 1) ∨ v > (2 : Int) ^ (w - 1) - 1)

/-- The operand positions of a mnemonic (R74). -/
def positions (m : Mnemonic) : List OperandKind := operandKinds (fmt m).cls

/-- An operand's value: a register index or an immediate (spec/30_encoding.md section 1). -/
inductive OperandValue where
  | reg (i : Nat)
  | imm (v : Int)
  deriving DecidableEq, Repr

/-- The operands of an instruction in the order of R62. -/
def Instr.operands : Instr → List OperandValue
  | .add d a b | .or d a b | .nand d a b | .sub d a b | .sll d a b => [.reg d, .reg a, .reg b]
  | .addi d a v | .ori d a v | .nandi d a v | .subi d a v | .slli d a v => [.reg d, .reg a, .imm v]
  | .ld r v | .st r v => [.reg r, .imm v]
  | .jump v => [.imm v]
  | .beq a b v | .blt a b v | .bgt a b v | .ble a b v | .bge a b v => [.reg a, .reg b, .imm v]

/-- What operand position `j` (counted from 0) of the given kind reads: `regAt` at a register position,
`immAt` at an immediate position, each at token `j + 1`, since token 0 is the mnemonic (R74). -/
def readPosition (toks : List Line) (kind : OperandKind) (j : Nat) : Except ErrorKind OperandValue :=
  match kind with
  | .register    => (regAt toks (j + 1)).map .reg
  | .immediate _ => (immAt toks (j + 1)).map .imm

/-- Operand position `j` (counted from 0) of a line fails with `e`: it has no token, or a token that
does not parse (R178). Token 0 is the mnemonic, so the position's token is token `j + 1`. -/
def PositionFails (toks : List Line) (kind : OperandKind) (j : Nat) (e : ErrorKind) : Prop :=
  (toks[j + 1]? = none ∧ e = .operandCountMismatch) ∨
  ∃ t, toks[j + 1]? = some t ∧ ¬FitsPosition t kind ∧ e = .malformedOperand

/-- The number that five hexadecimal digits denote (R148). -/
def readHex (h : Line) : Nat :=
  h.foldl (fun n c => 16 * n + (if c.toNat < 65 then c.toNat - 48 else c.toNat - 55)) 0

/-- An upper-case hexadecimal digit (R146). -/
def isUpperHex (c : Byte) : Bool :=
  (decide (48 ≤ c.toNat) && decide (c.toNat ≤ 57)) || (decide (65 ≤ c.toNat) && decide (c.toNat ≤ 70))

/-- An Encoded Output Line: five upper-case hexadecimal digits, the first of them 0 to 4 (R32, R150). -/
def isOutputLine (h : Line) : Bool :=
  h.length == 5 && h.all isUpperHex && h.head?.any fun c => decide (c.toNat ≤ 52)

/-- The invariant of a run: one output line per consumed line (R39), each of the form of R32 and R150;
and a recorded error is precise, being that of the line next to be consumed, at the index of that line
(R179), never `IOFailure` (R176). -/
structure Machine.State.Inv (s : Machine.State) : Prop where
  count : s.out.length = s.idx
  lines : ∀ h ∈ s.out, isOutputLine h = true
  fault : ∀ e, s.fault = some e → e.index = s.idx ∧ e.kind ≠ .ioFailure ∧
    ∃ line rest, s.input = line :: rest ∧ Machine.encodeLine line = .error e.kind

end Sys2Proof
end

