-- ==== Sys2Proof/Certificates/Slice0/Obligations.lean ====
section
/-! DEFINITION. The statements for the provers. -/

open Sys2Proof Sys2Proof.Machine

/-! ### The Format Table, words and instructions -/

/-- R54, R55: the 18 rows of the Format Table, in order; every mnemonic is one of them; different
mnemonics have different opcodes. -/
def Obligations.FormatTableHoldsTheEighteenRows : Prop :=
  mnemonics.map (fun m => (spelling m, (fmt m).opcode, (fmt m).cls)) =
    [(ascii "ADD", 0b000000#6, .R), (ascii "OR", 0b000001#6, .R), (ascii "NAND", 0b000010#6, .R),
     (ascii "SUB", 0b000011#6, .R), (ascii "SLL", 0b000100#6, .R),
     (ascii "ADDI", 0b000101#6, .I), (ascii "ORI", 0b000110#6, .I), (ascii "NANDI", 0b000111#6, .I),
     (ascii "SUBI", 0b001000#6, .I), (ascii "SLLI", 0b001001#6, .I),
     (ascii "LD", 0b001010#6, .LS), (ascii "ST", 0b001011#6, .LS),
     (ascii "JUMP", 0b001100#6, .J),
     (ascii "BEQ", 0b001101#6, .B), (ascii "BLT", 0b001110#6, .B), (ascii "BGT", 0b001111#6, .B),
     (ascii "BLE", 0b010000#6, .B), (ascii "BGE", 0b010001#6, .B)] ∧
  (∀ m, m ∈ mnemonics) ∧
  (∀ m m', (fmt m).opcode = (fmt m').opcode → m = m')

/-- One word of each format, written out from R47 to R51, is read as its instruction. -/
def Obligations.WrittenOutWordsDecode : Prop :=
  decodeWord 0b00000000010010001100#20 = .ok (.add 1 2 3) ∧
  decodeWord 0b00010100010000001010#20 = .ok (.addi 1 0 10) ∧
  decodeWord 0b00101100101111111111#20 = .ok (.st 2 (-1)) ∧
  decodeWord 0b00110011111111111111#20 = .ok (.jump (-1)) ∧
  decodeWord 0b00111000110100100000#20 = .ok (.blt 3 4 (-32))

/-- Decoding the word of a well-formed instruction gives the instruction back, for all 18 and every
operand value. The word decoder is the model's own (log 5). -/
def Obligations.DecodeOfEncodeIsTheInstruction : Prop :=
  ∀ i : Instr, i.wf = true → decodeWord (encode i) = .ok i

/-- A word that decodes is the word of the instruction it decodes to, which is well-formed: a word has
one meaning. The word decoder is the model's own (log 5). -/
def Obligations.EncodeOfDecodeIsTheWord : Prop :=
  ∀ (w : Word) (i : Instr), decodeWord w = .ok i → i.wf = true ∧ encode i = w

/-- A word is rejected exactly when the encoder never produces it, and the name says why: an opcode of
no mnemonic, or R-type padding that is not `00`. The word decoder is the model's own (log 5). -/
def Obligations.RejectedWordsAreNamed : Prop :=
  ∀ w : Word,
    (decodeWord w = .error .unassignedOpcode ↔ 18 ≤ (w.extractLsb' 14 6).toNat) ∧
    (decodeWord w = .error .nonzeroPad ↔
      (w.extractLsb' 14 6).toNat ≤ 4 ∧ w.extractLsb' 0 2 ≠ 0b00#2)

/-- The concatenation of fields agrees with the sums `uint(W) = …` of the rules on every instruction,
and every instruction with an operand out of range is refused. -/
def Obligations.FieldsAgreeWithTheSums : Prop :=
  ∀ i : Instr, encodeFields i = if i.wf then .ok (encode i) else .error .valueOutOfRange

/-- R60: two different valid instructions give two different words. -/
def Obligations.EncodeFieldsIsInjective : Prop :=
  ∀ (i j : Instr) (w : Word), encodeFields i = .ok w → encodeFields j = .ok w → i = j

/-- R56, R57: no produced word has an opcode 18 to 63, and every produced word of format R has padding
`00`. -/
def Obligations.NoUnassignedOpcodeAndNoOtherPad : Prop :=
  ∀ (i : Instr) (w : Word), encodeFields i = .ok w →
    (w.extractLsb' 14 6).toNat < 18 ∧ ((w.extractLsb' 14 6).toNat ≤ 4 → w.extractLsb' 0 2 = 0b00#2)

/-- R59: exactly these words are produced, 233472 of them. -/
def Obligations.ProducedWordsAreExactlyThese : Prop :=
  (∀ w : Word, (∃ i, encodeFields i = .ok w) ↔
    (5 ≤ (w.extractLsb' 14 6).toNat ∧ (w.extractLsb' 14 6).toNat ≤ 17) ∨
    ((w.extractLsb' 14 6).toNat ≤ 4 ∧ w.extractLsb' 0 2 = 0b00#2)) ∧
  Nat.card {w : Word // ∃ i, encodeFields i = .ok w} = 233472

/-! ### The front end -/

/-- R70, R71: the seven delimiters; tokens are the maximal runs of other characters, in order. The
four equations determine `tokens` on every line. -/
def Obligations.TokensAreTheMaximalRuns : Prop :=
  (∀ c : Byte, isDelim c = true ↔
    c ∈ [0x2C#8, 0x20#8, 0x09#8, 0x0A#8, 0x0B#8, 0x0C#8, 0x0D#8]) ∧
  tokens [] = [] ∧
  (∀ (c : Byte) (line : Line), isDelim c = true → tokens (c :: line) = tokens line) ∧
  (∀ t : Line, t ≠ [] → (∀ c ∈ t, isDelim c = false) → tokens t = [t]) ∧
  (∀ (t : Line) (c : Byte) (line : Line), t ≠ [] → (∀ c ∈ t, isDelim c = false) →
    isDelim c = true → tokens (t ++ c :: line) = t :: tokens line) ∧
  (∀ (line t : Line), t ∈ tokens line → t ≠ [] ∧ ∀ c ∈ t, isDelim c = false)

/-- R73: the whole first token, upper-cased, is compared with the 18 spellings; no token, or no such
spelling, is `UnknownInstruction`. -/
def Obligations.LookupMatchesTheWholeUpperCasedToken : Prop :=
  lookup [] = .error .unknownInstruction ∧
  (∀ (t : Line) (ts : List Line) (m : Mnemonic), lookup (t :: ts) = .ok m ↔ upper t = spelling m) ∧
  (∀ (t : Line) (ts : List Line), (∀ m, upper t ≠ spelling m) →
    lookup (t :: ts) = .error .unknownInstruction)

/-- The letter case of the mnemonic changes nothing: two lines whose tokens differ only there encode
alike. And `Upper` moves exactly the 26 letters `a` to `z` (R72). -/
def Obligations.MnemonicCaseDoesNotMatter : Prop :=
  (∀ c : Byte, (upperByte c).toNat =
    if 0x61 ≤ c.toNat ∧ c.toNat ≤ 0x7A then c.toNat - 0x20 else c.toNat) ∧
  (∀ (l l' t t' : Line) (ts : List Line), tokens l = t :: ts → tokens l' = t' :: ts →
    upper t = upper t' → encodeLine l = encodeLine l')

/-- R74: the operand positions each class requires, left to right, with the kind of each; a line whose
mnemonic is `m` is read at exactly these positions, the token of a position handed to `ParseReg` or
`ParseImm` by the position's kind alone, so `R3` at an immediate position and `3` at a register position are
malformed. A failure is that of the leftmost failing position. R83: a required position with no token is
`OperandCountMismatch`, and that is the line's error when the tokens present parse. -/
def Obligations.OperandPositionsOfEachClass : Prop :=
  operandKinds .R = [.register, .register, .register] ∧
  operandKinds .I = [.register, .register, .immediate 6] ∧
  operandKinds .LS = [.register, .immediate 10] ∧
  operandKinds .J = [.immediate 14] ∧
  operandKinds .B = [.register, .register, .immediate 6] ∧
  (∀ (l : Line) (m : Mnemonic), lookup (tokens l) = .ok m →
    parseLine l = parseOperands m (tokens l)) ∧
  (∀ (m : Mnemonic) (toks : List Line) (i : Instr), parseOperands m toks = .ok i ↔
    i.mnemonic = m ∧ i.operands.length = (positions m).length ∧
    ∀ j kind, (positions m)[j]? = some kind →
      ∃ x, readPosition toks kind j = .ok x ∧ i.operands[j]? = some x) ∧
  (∀ (m : Mnemonic) (toks : List Line) (e : ErrorKind), parseOperands m toks = .error e ↔
    ∃ j kind, (positions m)[j]? = some kind ∧ readPosition toks kind j = .error e ∧
      ∀ j' kind', j' < j → (positions m)[j']? = some kind' →
        ∃ x, readPosition toks kind' j' = .ok x) ∧
  (∀ (toks : List Line) (j : Nat) (t : Line), toks[j + 1]? = some t →
    readPosition toks .register j = (parseReg t).map .reg ∧
    ∀ w, readPosition toks (.immediate w) j = (parseImm t).map .imm) ∧
  (∀ (toks : List Line) (kind : OperandKind) (j : Nat), toks.length ≤ j + 1 →
    readPosition toks kind j = .error .operandCountMismatch) ∧
  (∀ (m : Mnemonic) (toks : List Line), toks.length ≤ (positions m).length →
    (∀ j kind, (positions m)[j]? = some kind → j + 1 < toks.length →
      ∃ x, readPosition toks kind j = .ok x) →
    parseOperands m toks = .error .operandCountMismatch) ∧
  parseImm (ascii "R3") = .error .malformedOperand ∧ parseReg (ascii "3") = .error .malformedOperand

/-- R75: `ParseReg` accepts exactly the Register References, with their decimal value, and refuses
everything else as `MalformedOperand`. -/
def Obligations.RegisterTokensParse : Prop :=
  ∀ t : Line, (∀ n, parseReg t = .ok n ↔ IsRegToken t n) ∧
    ((∀ n, ¬IsRegToken t n) → parseReg t = .error .malformedOperand)

/-- R78: `ParseImm` accepts exactly the Immediates, with their value, and refuses everything else as
`MalformedOperand`. -/
def Obligations.ImmediateTokensParse : Prop :=
  ∀ t : Line, (∀ v, parseImm t = .ok v ↔ IsImmToken t v) ∧
    ((∀ v, ¬IsImmToken t v) → parseImm t = .error .malformedOperand)

/-- R84: operand tokens beyond the number the class requires cannot change the result. -/
def Obligations.ExtraTokensAreIgnored : Prop :=
  ∀ (l l' : Line) (m : Mnemonic) (extra : List Line), lookup (tokens l) = .ok m →
    (positions m).length < (tokens l).length → tokens l' = tokens l ++ extra →
    encodeLine l' = encodeLine l

/-- R178: the one kind reported for a line. Lookup comes first; then the leftmost failing operand
position, so a malformed token that is present comes before a missing one; then ranges; otherwise the
line encodes. Between lines the earliest failing line is the one reported. -/
def Obligations.OneErrorIsReportedInThisOrder : Prop :=
  (∀ l, (∀ m, lookup (tokens l) ≠ .ok m) → encodeLine l = .error .unknownInstruction) ∧
  (∀ l m, lookup (tokens l) = .ok m →
    (∀ j kind e, (positions m)[j]? = some kind → PositionFails (tokens l) kind j e →
      (∀ j' kind' e', j' < j → (positions m)[j']? = some kind' →
        ¬PositionFails (tokens l) kind' j' e') →
      encodeLine l = .error e) ∧
    (∀ j kind, (positions m)[j]? = some kind → PositionFails (tokens l) kind j .malformedOperand →
      encodeLine l = .error .malformedOperand) ∧
    ((∀ j kind, (positions m)[j]? = some kind →
        ¬PositionFails (tokens l) kind j .malformedOperand) →
      (tokens l).length ≤ (positions m).length →
      encodeLine l = .error .operandCountMismatch) ∧
    ((∀ j kind e, (positions m)[j]? = some kind → ¬PositionFails (tokens l) kind j e) →
      ((∃ j kind t, (positions m)[j]? = some kind ∧ (tokens l)[j + 1]? = some t ∧ OutOfRange t kind) →
        encodeLine l = .error .valueOutOfRange) ∧
      ((∀ j kind t, (positions m)[j]? = some kind → (tokens l)[j + 1]? = some t →
          ¬OutOfRange t kind) →
        ∃ w, encodeLine l = .ok (w, hex w)))) ∧
  (∀ lines k i, encodeRun lines = .error ⟨k, i⟩ ↔
    (∃ l, lines[i]? = some l ∧ encodeLine l = .error k) ∧
    ∀ j l, j < i → lines[j]? = some l → ∃ r, encodeLine l = .ok r)

/-- The printed form of every instruction parses back to it, in range or not (R64; the spelling of the
printed form is decision D26). -/
def Obligations.PrintedFormParsesBack : Prop :=
  ∀ i : Instr, parseLine (printLine i) = .ok i

/-- The printed form of a well-formed instruction encodes to the word the rules' sums give, and to its
hex text. -/
def Obligations.PrintedFormEncodes : Prop :=
  ∀ i : Instr, i.wf = true → encodeLine (printLine i) = .ok (encode i, hex (encode i))

/-! ### The leaf encoders and the renderer -/

/-- R76: an index 0 to 15 gives its 4-bit binary value, a greater one `ValueOutOfRange`. Every 4-bit
field is that of exactly one index (R77). -/
def Obligations.RegisterFieldIsTheBinaryIndex : Prop :=
  (∀ i, i ≤ 15 → ∃ f, regField i = .ok f ∧ f.toNat = i) ∧
  (∀ i, 16 ≤ i → regField i = .error .valueOutOfRange) ∧
  (∀ f : BitVec 4, ∃ i, i ≤ 15 ∧ regField i = .ok f ∧ ∀ j, regField j = .ok f → j = i)

/-- R80, R82: the signed range of each width is accepted and nothing else; the field is the
two's-complement form of the value, `2^w + v` when `v` is negative; its top bit says the sign; it
sign-extends to the same value; every bit pattern is the field of exactly one value. -/
def Obligations.ImmediateFieldIsTwosComplement : Prop :=
  ∀ w ∈ [6, 10, 14],
    (∀ v : Int, -(2 : Int) ^ (w - 1) ≤ v → v ≤ (2 : Int) ^ (w - 1) - 1 →
      ∃ f : BitVec w, immField w v = .ok f ∧ f.toInt = v ∧ (f.toNat : Int) = v % (2 : Int) ^ w ∧
        (f.toNat : Int) = (if v < 0 then (2 : Int) ^ w + v else v) ∧
        (f.msb = true ↔ v < 0) ∧ ∀ n, w ≤ n → (f.signExtend n).toInt = v) ∧
    (∀ v : Int, v < -(2 : Int) ^ (w - 1) ∨ v > (2 : Int) ^ (w - 1) - 1 →
      immField w v = .error .valueOutOfRange) ∧
    (∀ f : BitVec w, ∃ v : Int, -(2 : Int) ^ (w - 1) ≤ v ∧ v ≤ (2 : Int) ^ (w - 1) - 1 ∧
      immField w v = .ok f ∧ ∀ v', immField w v' = .ok f → v' = v)

/-- R145, R146: five digits, digit `k` that of bits `19-4k` to `16-4k`, from the alphabet
`0123456789ABCDEF`. -/
def Obligations.HexWritesTheFiveDigits : Prop :=
  (∀ d : BitVec 4, (ascii "0123456789ABCDEF")[d.toNat]? = some (hexDigit d)) ∧
  (∀ w : Word, (hex w).length = 5 ∧ ∀ k, k < 5 →
    (hex w)[k]? = some (hexDigit (w.extractLsb' (16 - 4 * k) 4)) ∧
    (hex w)[k]? = (ascii "0123456789ABCDEF")[w.toNat / 16 ^ (4 - k) % 16]?)

/-- R148: the line is five hexadecimal digits and nothing else, reading them in base 16 gives the word
back, and different words give different lines. -/
def Obligations.HexReadsBack : Prop :=
  (∀ w : Word, (hex w).length = 5 ∧ (∀ c ∈ hex w, isUpperHex c = true) ∧ readHex (hex w) = w.toNat) ∧
  (∀ w w' : Word, hex w = hex w' → w = w')

/-- R150: every emitted line begins with a digit 0 to 4, and the rule's examples of `Hex`. -/
def Obligations.EmittedLinesBeginWithZeroToFour : Prop :=
  (∀ l w h, encodeLine l = .ok (w, h) →
    w.toNat ≤ 0x47FFF ∧ ∃ c rest, h = c :: rest ∧ c ∈ ascii "01234") ∧
  hex 0b11111111111111111111#20 = ascii "FFFFF" ∧
  hex 0b00000000010010001100#20 = ascii "0048C" ∧
  hex 0b00110011111111111111#20 = ascii "33FFF" ∧
  hex 0b00000000000000000000#20 = ascii "00000" ∧
  hex 0b00000000000000001010#20 = ascii "0000A" ∧
  hex 0b10101011110011011110#20 = ascii "ABCDE"

/-! ### The five classes, one line -/

/-- R100 to R105: every line whose mnemonic is of class R. All three operands are read left to right,
the first that fails is the result; in range they give the word, out of range `ValueOutOfRange`. Tokens
after the third operand do not occur in the statement, so they have no effect. -/
def Obligations.RTypeLines : Prop :=
  (∀ p ∈ [(Mnemonic.ADD, 0b000000#6), (.OR, 0b000001#6), (.NAND, 0b000010#6), (.SUB, 0b000011#6),
      (.SLL, 0b000100#6)], ∀ l : Line, lookup (tokens l) = .ok p.1 →
    (∀ k, regAt (tokens l) 1 = .error k → encodeLine l = .error k) ∧
    (∀ rd k, regAt (tokens l) 1 = .ok rd → regAt (tokens l) 2 = .error k → encodeLine l = .error k) ∧
    (∀ rd rs1 k, regAt (tokens l) 1 = .ok rd → regAt (tokens l) 2 = .ok rs1 →
      regAt (tokens l) 3 = .error k → encodeLine l = .error k) ∧
    (∀ rd rs1 rs2, regAt (tokens l) 1 = .ok rd → regAt (tokens l) 2 = .ok rs1 →
      regAt (tokens l) 3 = .ok rs2 →
      (rd ≤ 15 ∧ rs1 ≤ 15 ∧ rs2 ≤ 15 → ∃ w : Word, encodeLine l = .ok (w, hex w) ∧
        w = p.2 ++ BitVec.ofNat 4 rd ++ BitVec.ofNat 4 rs1 ++ BitVec.ofNat 4 rs2 ++ 0b00#2 ∧
        w.toNat = p.2.toNat * 16384 + rd * 1024 + rs1 * 64 + rs2 * 4) ∧
      (16 ≤ rd ∨ 16 ≤ rs1 ∨ 16 ≤ rs2 → encodeLine l = .error .valueOutOfRange))) ∧
  encodeLine (ascii "ADD R1, R2, R3") = .ok (0b00000000010010001100#20, ascii "0048C") ∧
  encodeLine (ascii "ADD R1, R2, 3") = .error .malformedOperand ∧
  encodeLine (ascii "OR R4, R5, R6") = .ok (0b00000101000101011000#20, ascii "05158") ∧
  encodeLine (ascii "NAND R7, R8, R9") = .ok (0b00001001111000100100#20, ascii "09E24") ∧
  encodeLine (ascii "SUB R10, R11, R12") = .ok (0b00001110101011110000#20, ascii "0EAF0") ∧
  encodeLine (ascii "SLL R13, R14, R15") = .ok (0b00010011011110111100#20, ascii "137BC")

/-- R110 to R115: every line whose mnemonic is of class I. -/
def Obligations.ITypeLines : Prop :=
  (∀ p ∈ [(Mnemonic.ADDI, 0b000101#6), (.ORI, 0b000110#6), (.NANDI, 0b000111#6), (.SUBI, 0b001000#6),
      (.SLLI, 0b001001#6)], ∀ l : Line, lookup (tokens l) = .ok p.1 →
    (∀ k, regAt (tokens l) 1 = .error k → encodeLine l = .error k) ∧
    (∀ rd k, regAt (tokens l) 1 = .ok rd → regAt (tokens l) 2 = .error k → encodeLine l = .error k) ∧
    (∀ rd rs1 k, regAt (tokens l) 1 = .ok rd → regAt (tokens l) 2 = .ok rs1 →
      immAt (tokens l) 3 = .error k → encodeLine l = .error k) ∧
    (∀ rd rs1 imm, regAt (tokens l) 1 = .ok rd → regAt (tokens l) 2 = .ok rs1 →
      immAt (tokens l) 3 = .ok imm →
      (rd ≤ 15 ∧ rs1 ≤ 15 ∧ -32 ≤ imm ∧ imm ≤ 31 → ∃ w : Word, encodeLine l = .ok (w, hex w) ∧
        w = p.2 ++ BitVec.ofNat 4 rd ++ BitVec.ofNat 4 rs1 ++ BitVec.ofInt 6 imm ∧
        (w.toNat : Int) = p.2.toNat * 16384 + rd * 1024 + rs1 * 64 + imm % 64) ∧
      (16 ≤ rd ∨ 16 ≤ rs1 ∨ imm < -32 ∨ 31 < imm → encodeLine l = .error .valueOutOfRange))) ∧
  encodeLine (ascii "ADDI R1, R0, 10") = .ok (0b00010100010000001010#20, ascii "1440A") ∧
  encodeLine (ascii "ADDI R1, R2, R3") = .error .malformedOperand ∧
  encodeLine (ascii "ORI R3, R4, 21") = .ok (0b00011000110100010101#20, ascii "18D15") ∧
  encodeLine (ascii "NANDI R5, R6, -7") = .ok (0b00011101010110111001#20, ascii "1D5B9") ∧
  encodeLine (ascii "SUBI R1, R1, 1") = .ok (0b00100000010001000001#20, ascii "20441") ∧
  encodeLine (ascii "SLLI R8, R9, 3") = .ok (0b00100110001001000011#20, ascii "26243")

/-- R120 to R122: every line whose mnemonic is of class LS. -/
def Obligations.LoadStoreLines : Prop :=
  (∀ p ∈ [(Mnemonic.LD, 0b001010#6), (.ST, 0b001011#6)], ∀ l : Line, lookup (tokens l) = .ok p.1 →
    (∀ k, regAt (tokens l) 1 = .error k → encodeLine l = .error k) ∧
    (∀ r k, regAt (tokens l) 1 = .ok r → immAt (tokens l) 2 = .error k → encodeLine l = .error k) ∧
    (∀ r imm, regAt (tokens l) 1 = .ok r → immAt (tokens l) 2 = .ok imm →
      (r ≤ 15 ∧ -512 ≤ imm ∧ imm ≤ 511 → ∃ w : Word, encodeLine l = .ok (w, hex w) ∧
        w = p.2 ++ BitVec.ofNat 4 r ++ BitVec.ofInt 10 imm ∧
        (w.toNat : Int) = p.2.toNat * 16384 + r * 1024 + imm % 1024) ∧
      (16 ≤ r ∨ imm < -512 ∨ 511 < imm → encodeLine l = .error .valueOutOfRange))) ∧
  encodeLine (ascii "LD R1, 100") = .ok (0b00101000010001100100#20, ascii "28464") ∧
  encodeLine (ascii "LD R1, R2, 4") = .error .malformedOperand ∧
  encodeLine (ascii "LD R1, 4, R2") = encodeLine (ascii "LD R1, 4") ∧
  encodeLine (ascii "ST R2, -1") = .ok (0b00101100101111111111#20, ascii "2CBFF")

/-- Every line whose mnemonic is JUMP (R130, R131); and the sequencer's `idx` advances by one, whatever the
offset. The `idx` clause is said of `exec` from every state: that `exec` counts its instruction as a consumed
line, with an empty `input` too, is the model's choice (log 4). -/
def Obligations.JumpLines : Prop :=
  (∀ l : Line, lookup (tokens l) = .ok .JUMP →
    ((tokens l).length ≤ 1 → encodeLine l = .error .operandCountMismatch) ∧
    (∀ k, immAt (tokens l) 1 = .error k → encodeLine l = .error k) ∧
    (∀ imm, immAt (tokens l) 1 = .ok imm →
      (-8192 ≤ imm ∧ imm ≤ 8191 → ∃ w : Word, encodeLine l = .ok (w, hex w) ∧
        w = 0b001100#6 ++ BitVec.ofInt 14 imm ∧ (w.toNat : Int) = 196608 + imm % 16384) ∧
      (imm < -8192 ∨ 8191 < imm → encodeLine l = .error .valueOutOfRange))) ∧
  (∀ (s t : State) (imm : Int), exec (.jump imm) s = .next t → t.fault = none → t.idx = s.idx + 1) ∧
  encodeLine (ascii "JUMP -1") = .ok (0b00110011111111111111#20, ascii "33FFF") ∧
  encodeLine (ascii "JUMP-1") = .error .unknownInstruction

/-- Every line whose mnemonic is of class B (R135 to R140); and the sequencer's `idx` advances by one,
whatever the offset. The `idx` clause is said of `exec` from every state: that `exec` counts its instruction
as a consumed line, with an empty `input` too, is the model's choice (log 4). -/
def Obligations.BranchLines : Prop :=
  (∀ p ∈ [(Mnemonic.BEQ, 0b001101#6), (.BLT, 0b001110#6), (.BGT, 0b001111#6), (.BLE, 0b010000#6),
      (.BGE, 0b010001#6)], ∀ l : Line, lookup (tokens l) = .ok p.1 →
    (∀ k, regAt (tokens l) 1 = .error k → encodeLine l = .error k) ∧
    (∀ r1 k, regAt (tokens l) 1 = .ok r1 → regAt (tokens l) 2 = .error k → encodeLine l = .error k) ∧
    (∀ r1 r2 k, regAt (tokens l) 1 = .ok r1 → regAt (tokens l) 2 = .ok r2 →
      immAt (tokens l) 3 = .error k → encodeLine l = .error k) ∧
    (∀ r1 r2 imm, regAt (tokens l) 1 = .ok r1 → regAt (tokens l) 2 = .ok r2 →
      immAt (tokens l) 3 = .ok imm →
      (r1 ≤ 15 ∧ r2 ≤ 15 ∧ -32 ≤ imm ∧ imm ≤ 31 → ∃ w : Word, encodeLine l = .ok (w, hex w) ∧
        w = p.2 ++ BitVec.ofNat 4 r1 ++ BitVec.ofNat 4 r2 ++ BitVec.ofInt 6 imm ∧
        (w.toNat : Int) = p.2.toNat * 16384 + r1 * 1024 + r2 * 64 + imm % 64) ∧
      (16 ≤ r1 ∨ 16 ≤ r2 ∨ imm < -32 ∨ 31 < imm → encodeLine l = .error .valueOutOfRange))) ∧
  (∀ mk ∈ [Instr.beq, .blt, .bgt, .ble, .bge], ∀ (s t : State) (r1 r2 : Nat) (imm : Int),
    exec (mk r1 r2 imm) s = .next t → t.fault = none → t.idx = s.idx + 1) ∧
  encodeLine (ascii "BEQ R1, R2, 4") = .ok (0b00110100010010000100#20, ascii "34484") ∧
  encodeLine (ascii "BEQ R1, R2, loop") = .error .malformedOperand ∧
  encodeLine (ascii "BLT R3, R4, -32") = .ok (0b00111000110100100000#20, ascii "38D20") ∧
  encodeLine (ascii "BGT R1, R0, -3") = .ok (0b00111100010000111101#20, ascii "3C43D") ∧
  encodeLine (ascii "BLE R7, R8, 0") = .ok (0b01000001111000000000#20, ascii "41E00") ∧
  encodeLine (ascii "BGE R15, R0, -1") = .ok (0b01000111110000111111#20, ascii "47C3F")

/-! ### The five classes, the machine's state -/

/-- R47 and the sequencer's step R15: with no error recorded and every index 0 to 15, ADD, OR, NAND, SUB
and SLL complete: one line is consumed, the hex text of the word in format R is appended to `out`, every
earlier output line stays, and no error is recorded. The whole next state is given. What becomes of
`input` is the model's own (log 1, log 4). -/
def Obligations.RTypeInstructionsComplete : Prop :=
  ∀ p ∈ [(Instr.add, 0b000000#6), (.or, 0b000001#6), (.nand, 0b000010#6), (.sub, 0b000011#6),
      (.sll, 0b000100#6)], ∀ (s : State) (rd rs1 rs2 : Nat),
    s.fault = none → rd ≤ 15 → rs1 ≤ 15 → rs2 ≤ 15 →
    exec (p.1 rd rs1 rs2) s = .next
      { idx := s.idx + 1
        out := s.out ++ [hex (p.2 ++ BitVec.ofNat 4 rd ++ BitVec.ofNat 4 rs1 ++ BitVec.ofNat 4 rs2
          ++ 0b00#2)]
        fault := none
        input := s.input.tail }

/-- R48 and R15: likewise ADDI, ORI, NANDI, SUBI and SLLI, with an immediate -32 to 31 in format I. -/
def Obligations.ITypeInstructionsComplete : Prop :=
  ∀ p ∈ [(Instr.addi, 0b000101#6), (.ori, 0b000110#6), (.nandi, 0b000111#6), (.subi, 0b001000#6),
      (.slli, 0b001001#6)], ∀ (s : State) (rd rs1 : Nat) (imm : Int),
    s.fault = none → rd ≤ 15 → rs1 ≤ 15 → -32 ≤ imm → imm ≤ 31 →
    exec (p.1 rd rs1 imm) s = .next
      { idx := s.idx + 1
        out := s.out ++ [hex (p.2 ++ BitVec.ofNat 4 rd ++ BitVec.ofNat 4 rs1 ++ BitVec.ofInt 6 imm)]
        fault := none
        input := s.input.tail }

/-- R49 and R15: likewise LD and ST, with an immediate -512 to 511 in format LS. -/
def Obligations.LoadStoreInstructionsComplete : Prop :=
  ∀ p ∈ [(Instr.ld, 0b001010#6), (.st, 0b001011#6)], ∀ (s : State) (r : Nat) (imm : Int),
    s.fault = none → r ≤ 15 → -512 ≤ imm → imm ≤ 511 →
    exec (p.1 r imm) s = .next
      { idx := s.idx + 1
        out := s.out ++ [hex (p.2 ++ BitVec.ofNat 4 r ++ BitVec.ofInt 10 imm)]
        fault := none
        input := s.input.tail }

/-- R50 and R15: likewise JUMP, with an immediate -8192 to 8191 in format J. -/
def Obligations.JumpInstructionCompletes : Prop :=
  ∀ (s : State) (imm : Int), s.fault = none → -8192 ≤ imm → imm ≤ 8191 →
    exec (.jump imm) s = .next
      { idx := s.idx + 1
        out := s.out ++ [hex (0b001100#6 ++ BitVec.ofInt 14 imm)]
        fault := none
        input := s.input.tail }

/-- R51 and R15: likewise BEQ, BLT, BGT, BLE and BGE, with an immediate -32 to 31 in format B. -/
def Obligations.BranchInstructionsComplete : Prop :=
  ∀ p ∈ [(Instr.beq, 0b001101#6), (.blt, 0b001110#6), (.bgt, 0b001111#6), (.ble, 0b010000#6),
      (.bge, 0b010001#6)], ∀ (s : State) (r1 r2 : Nat) (imm : Int),
    s.fault = none → r1 ≤ 15 → r2 ≤ 15 → -32 ≤ imm → imm ≤ 31 →
    exec (p.1 r1 r2 imm) s = .next
      { idx := s.idx + 1
        out := s.out ++ [hex (p.2 ++ BitVec.ofNat 4 r1 ++ BitVec.ofNat 4 r2 ++ BitVec.ofInt 6 imm)]
        fault := none
        input := s.input.tail }

/-- Every instruction with an operand out of range takes the error `ValueOutOfRange`: it is recorded with
the current index, and `out`, `idx` and `input` keep their values (R15, R179; `input`: log 4). -/
def Obligations.OutOfRangeOperandsTakeTheError : Prop :=
  ∀ (i : Instr) (s : State), s.fault = none → i.wf = false →
    exec i s = .next
      { idx := s.idx, out := s.out, fault := some ⟨.valueOutOfRange, s.idx⟩, input := s.input }

/-- R174: what raises `ValueOutOfRange`; it is raised only for a line that parses completely, and every
one of the 18 mnemonics can raise it. -/
def Obligations.ValueOutOfRangeIsRaisedHere : Prop :=
  (∀ i, regField i = .error .valueOutOfRange ↔ 16 ≤ i) ∧
  (∀ w ∈ [6, 10, 14], ∀ v : Int, immField w v = .error .valueOutOfRange ↔
    v < -(2 : Int) ^ (w - 1) ∨ v > (2 : Int) ^ (w - 1) - 1) ∧
  (∀ l, encodeLine l = .error .valueOutOfRange ↔ ∃ i, parseLine l = .ok i ∧ i.wf = false) ∧
  (∀ m, ∃ l, lookup (tokens l) = .ok m ∧ encodeLine l = .error .valueOutOfRange)

/-- The frame of all 18 instructions: when one answers a next state, no error was recorded before, and
either one line was consumed and one output line appended, or only `fault` changed. Nothing else exists
to change: no flag, register or memory (R14, R16, R30). `input` is the model's own field (log 1), and
what becomes of it is the model's choice (log 4). -/
def Obligations.InstructionsChangeOnlyThis : Prop :=
  ∀ (i : Instr) (s t : State), exec i s = .next t → s.fault = none ∧
    ((∃ w, encodeFields i = .ok w ∧ t.idx = s.idx + 1 ∧ t.out = s.out ++ [hex w] ∧ t.fault = none ∧
        t.input = s.input.tail) ∨
     (∃ k, encodeFields i = .error k ∧ t.idx = s.idx ∧ t.out = s.out ∧ t.fault = some ⟨k, s.idx⟩ ∧
        t.input = s.input))

/-! ### The sequencer -/

/-- R19: the state after reset, with the Format Table holding its 18 entries. -/
def Obligations.ResetState : Prop :=
  State.reset.idx = 0 ∧ State.reset.out = [] ∧ State.reset.fault = none ∧
  Obligations.FormatTableHoldsTheEighteenRows

/-- Reset, at any time and after a fault too, starts a run that depends on its lines only (R20, R200); and
nothing else clears `fault`: no step and no instruction leads out of a state with an error recorded (R15,
R181). That reset hands the new lines over in `input` is the model's choice (log 1), and the outcome
`runAborted` where the sequencer has no step is its reading of R15 and R181 (log 3). -/
def Obligations.ResetStartsAnIndependentRun : Prop :=
  (∀ (lines : List Line) (s : State), (startRun lines s).idx = 0 ∧ (startRun lines s).out = [] ∧
    (startRun lines s).fault = none ∧ (startRun lines s).input = lines) ∧
  (∀ (lines : List Line) (s s' : State) (n : Nat),
    core.run n (startRun lines s) = core.run n (startRun lines s')) ∧
  (∀ (s : State) (e : ErrorRecord), s.fault = some e → step s = .fault (.runAborted e.kind e.index) ∧
    ∀ i, exec i s = .fault (.runAborted e.kind e.index))

/-- When the line at the head of `input`, the model's own field (log 1), parses to an instruction, the step
is that instruction's meaning and nothing else is added around it. -/
def Obligations.StepRunsTheDecodedInstruction : Prop :=
  ∀ (s : State) (line : Line) (rest : List Line) (i : Instr),
    s.input = line :: rest → parseLine line = .ok i → step s = exec i s

/-- The sequencer's step on the next line: emit, take the error, or none once `fault` is set (R15, for
`idx`, `out` and `fault`). That the next line stands at the head of `input`, that it is dropped when it
encodes and stays when it fails, is the model's (log 1, log 4). -/
def Obligations.SequencerStep : Prop :=
  (∀ (s : State) (line : Line) (rest : List Line), s.fault = none → s.input = line :: rest →
    (∀ w h, encodeLine line = .ok (w, h) → step s = .next
      { idx := s.idx + 1, out := s.out ++ [h], fault := none, input := rest }) ∧
    (∀ k, encodeLine line = .error k → step s = .next
      { idx := s.idx, out := s.out, fault := some ⟨k, s.idx⟩, input := s.input })) ∧
  (∀ (s t : State), s.fault ≠ none → step s ≠ .next t)

/-- A run goes on exactly while no error is recorded and a line is left; it ends with every line consumed,
or with `fault` set (R22); and it does end, within one step per line (R208). The lines left stand in the
model's own field `input` (log 1), and `noLinePresented` and `runAborted` are the model's names for the
two ends, where the spec gives no step (log 3). -/
def Obligations.EveryRunEnds : Prop :=
  (∀ s : State, (∃ t, step s = .next t) ↔ s.fault = none ∧ s.input ≠ []) ∧
  (∀ s : State, step s = .refused .noLinePresented ↔ s.fault = none ∧ s.input = []) ∧
  (∀ (s : State) (k : ErrorKind) (n : Nat),
    step s = .fault (.runAborted k n) ↔ s.fault = some ⟨k, n⟩) ∧
  (∀ s : State, core.run (s.input.length + 1) s = .refused .noLinePresented ∨
    ∃ k n, core.run (s.input.length + 1) s = .fault (.runAborted k n))

/-- Every step keeps the invariant of a run, from every state that meets it. Its clause on `input`, that a
recorded error is that of the line at its head, rests on the model's own field and on a failing line's
staying there (log 1, log 4). -/
def Obligations.StepKeepsTheInvariant : Prop :=
  ∀ s t : State, s.Inv → step s = .next t → t.Inv

/-- The state after reset, and the start of every run, meets the invariant. A run's lines stand in the
model's own field `input`, which is empty after reset by the model's choice (log 1). -/
def Obligations.ResetMeetsTheInvariant : Prop :=
  State.reset.Inv ∧ ∀ (lines : List Line) (s : State), (startRun lines s).Inv

/-- Lines are consumed in order, each once, and exactly the consumed ones are counted: the lines waiting
after a step are those before it less the consumed one, and consumed plus waiting is constant. `input` is
the model's own field (log 1, log 4). -/
def Obligations.LinesAreConsumedInOrder : Prop :=
  ∀ s t : State, step s = .next t →
    t.input = s.input.drop (t.idx - s.idx) ∧ t.idx + t.input.length = s.idx + s.input.length ∧
    s.idx ≤ t.idx ∧ t.idx ≤ s.idx + 1 ∧ s.out <+: t.out

/-- `EncodeRun` is the closed form of the sequencer fed all the lines from reset (R158). A failed run stops
at its failing line, with the outputs of the earlier lines in `out`, and has no further step. The model
feeds the lines through its own field `input` (log 1), leaves the failing line there (log 4), and answers
`runAborted` where there is no further step (log 3). -/
def Obligations.EncodeRunIsTheSequencer : Prop :=
  ∀ (lines : List Line) (s : State),
    (∀ out, encodeRun lines = .ok out ↔ core.run lines.length (startRun lines s) =
      .next { idx := lines.length, out := out, fault := none, input := [] }) ∧
    (∀ k i, encodeRun lines = .error ⟨k, i⟩ ↔ i < lines.length ∧ ∃ out,
      encodeRun (lines.take i) = .ok out ∧ core.run (i + 1) (startRun lines s) =
        .next { idx := i, out := out, fault := some ⟨k, i⟩, input := lines.drop i }) ∧
    (∀ k i, encodeRun lines = .error ⟨k, i⟩ → ∀ n, i + 2 ≤ n →
      core.run n (startRun lines s) = .fault (.runAborted k i))

/-- R159: line count, pointwise, first error, no influence of later lines, concatenation, empty run. (Law 6,
idempotence, holds of any function.) -/
def Obligations.LawsOfARun : Prop :=
  (∀ lines out, encodeRun lines = .ok out → out.length = lines.length) ∧
  (∀ lines out, encodeRun lines = .ok out ↔ out.length = lines.length ∧
    ∀ (j : Nat) l, lines[j]? = some l → ∃ w h, out[j]? = some h ∧ encodeLine l = .ok (w, h)) ∧
  (∀ lines k i, encodeRun lines = .error ⟨k, i⟩ →
    (∃ l, lines[i]? = some l ∧ encodeLine l = .error k) ∧
    (∀ (j : Nat) l, j < i → lines[j]? = some l → ∃ r, encodeLine l = .ok r) ∧
    ∀ later, encodeRun (lines.take (i + 1) ++ later) = .error ⟨k, i⟩) ∧
  (∀ a b x y, encodeRun a = .ok x → encodeRun b = .ok y → encodeRun (a ++ b) = .ok (x ++ y)) ∧
  encodeRun [] = .ok []

/-- What a line encodes to does not depend on earlier lines, on its position in the run or on how many lines
were encoded before (R10): two states about to read the same line append the same output line, or record the
same kind of error. The next line is read from the head of the model's own field `input` (log 1), and what
is recorded is R15's. -/
def Obligations.EncodingHasNoHistory : Prop :=
  ∀ (s s' : State) (line : Line) (rest rest' : List Line), s.fault = none → s'.fault = none →
    s.input = line :: rest → s'.input = line :: rest' →
    (∃ h t t', step s = .next t ∧ step s' = .next t' ∧ t.out = s.out ++ [h] ∧ t'.out = s'.out ++ [h] ∧
      t.fault = none ∧ t'.fault = none) ∨
    (∃ k t t', step s = .next t ∧ step s' = .next t' ∧ t.fault = some ⟨k, s.idx⟩ ∧
      t'.fault = some ⟨k, s'.idx⟩ ∧ t.out = s.out ∧ t'.out = s'.out)

/-- R160 and the codes of R170: the ports of one transaction. (With `ok` 0, the absent word and text are
the model's choice, log 7.) -/
def Obligations.PortsOfATransaction : Prop :=
  (∀ l w h, encodeLine l = .ok (w, h) →
    transact l = { ok := true, wordOut := some w, hexOut := some h, errOut := 0#3 }) ∧
  (∀ l k, encodeLine l = .error k → (transact l).ok = false ∧
    (k = .unknownInstruction ∧ (transact l).errOut = 1#3 ∨
     k = .operandCountMismatch ∧ (transact l).errOut = 2#3 ∨
     k = .malformedOperand ∧ (transact l).errOut = 3#3 ∨
     k = .valueOutOfRange ∧ (transact l).errOut = 4#3))

/-- R176: the encoder never raises `IOFailure`; code 5 stays reserved for it. -/
def Obligations.IOFailureIsNeverRaised : Prop :=
  (∀ l, encodeLine l ≠ .error .ioFailure) ∧ (∀ l, (transact l).errOut ≠ 5#3) ∧
  (∀ lines i, encodeRun lines ≠ .error ⟨.ioFailure, i⟩) ∧
  (∀ (s t : State) (n : Nat), s.fault = none → step s = .next t → t.fault ≠ some ⟨.ioFailure, n⟩) ∧
  errorCode .ioFailure = 5#3
end

