-- ==== Sys2Proof/Laws/Operands.lean ====
section
/-! SUPPORT. The leaf encoders, the renderer, and the agreement of the field datapath with the sums. -/

namespace Sys2Proof.Machine

/-! ### Register field -/

theorem regField_ok {i : Nat} (h : i ≤ 15) : regField i = .ok (BitVec.ofNat 4 i) := by
  simp [regField, bin, h]

theorem regField_error {i : Nat} (h : 16 ≤ i) : regField i = .error .valueOutOfRange := by
  simp only [regField, Config.regMax]; rw [if_neg (by omega)]

/-! ### Immediate field -/

theorem immField_ok {w : Nat} {v : Int} (hl : -(2 : Int) ^ (w - 1) ≤ v)
    (hu : v ≤ (2 : Int) ^ (w - 1) - 1) : immField w v = .ok (BitVec.ofInt w v) := by
  rw [immField, if_neg (by omega)]
  split
  · rename_i hneg
    congr 1
    apply BitVec.eq_of_toNat_eq
    have h1 : (2 : Int) ^ (w - 1) ≤ (2 : Int) ^ w := pow_le_pow_right₀ (by decide) (by omega)
    have hpos : 0 ≤ (2 : Int) ^ w + v := by omega
    have hc : ((2 : Nat) ^ w : Nat) = ((2 : Int) ^ w) := by push_cast; rfl
    have hz : (2 : Int) ^ w + v < (2 : Int) ^ w := by omega
    simp only [bin, BitVec.toNat_ofNat, BitVec.toNat_ofInt]
    rw [Nat.mod_eq_of_lt (by omega), hc, ← Int.add_emod_left, Int.emod_eq_of_lt hpos hz]
  · congr 1
    apply BitVec.eq_of_toNat_eq
    have h1 : (2 : Int) ^ (w - 1) ≤ (2 : Int) ^ w := pow_le_pow_right₀ (by decide) (by omega)
    have hc : ((2 : Nat) ^ w : Nat) = ((2 : Int) ^ w) := by push_cast; rfl
    simp only [bin, BitVec.toNat_ofNat, BitVec.toNat_ofInt]
    rw [Nat.mod_eq_of_lt (by omega), hc, Int.emod_eq_of_lt (by omega) (by omega)]

theorem immField_error {w : Nat} {v : Int}
    (h : v < -(2 : Int) ^ (w - 1) ∨ v > (2 : Int) ^ (w - 1) - 1) :
    immField w v = .error .valueOutOfRange := by
  rw [immField, if_pos h]

theorem immOk_iff {w : Nat} {v : Int} :
    immOk w v = true ↔ -(2 : Int) ^ (w - 1) ≤ v ∧ v ≤ (2 : Int) ^ (w - 1) - 1 := by
  simp [immOk]

theorem immField_eq (w : Nat) (v : Int) :
    immField w v = if immOk w v then .ok (BitVec.ofInt w v) else .error .valueOutOfRange := by
  split
  · rename_i h; obtain ⟨hl, hu⟩ := immOk_iff.1 h; exact immField_ok hl hu
  · rename_i h; rw [immOk_iff] at h; exact immField_error (by omega)

theorem regField_eq (i : Nat) :
    regField i = if regOk i then .ok (BitVec.ofNat 4 i) else .error .valueOutOfRange := by
  by_cases h : i ≤ 15 <;> simp [regOk, regField, bin, h]

/-! ### Formats -/

theorem encodeR_eq (m : Mnemonic) (d a b : Nat) : encodeR m d a b =
    if regOk d && regOk a && regOk b then
      .ok ((fmt m).opcode ++ BitVec.ofNat 4 d ++ BitVec.ofNat 4 a ++ BitVec.ofNat 4 b ++ 0b00#2)
    else .error .valueOutOfRange := by
  cases hd : regOk d <;> cases ha : regOk a <;> cases hb : regOk b <;>
    simp only [encodeR, regField_eq, hd, ha, hb] <;> rfl

theorem encodeI_eq (m : Mnemonic) (d a : Nat) (v : Int) : encodeI m d a v =
    if regOk d && regOk a && immOk 6 v then
      .ok ((fmt m).opcode ++ BitVec.ofNat 4 d ++ BitVec.ofNat 4 a ++ BitVec.ofInt 6 v)
    else .error .valueOutOfRange := by
  cases hd : regOk d <;> cases ha : regOk a <;> cases hv : immOk 6 v <;>
    simp only [encodeI, regField_eq, immField_eq, hd, ha, hv, Config.immWidthI] <;> rfl

theorem encodeB_eq (m : Mnemonic) (a b : Nat) (v : Int) : encodeB m a b v =
    if regOk a && regOk b && immOk 6 v then
      .ok ((fmt m).opcode ++ BitVec.ofNat 4 a ++ BitVec.ofNat 4 b ++ BitVec.ofInt 6 v)
    else .error .valueOutOfRange := by
  cases ha : regOk a <;> cases hb : regOk b <;> cases hv : immOk 6 v <;>
    simp only [encodeB, regField_eq, immField_eq, ha, hb, hv, Config.immWidthB] <;> rfl

theorem encodeLS_eq (m : Mnemonic) (r : Nat) (v : Int) : encodeLS m r v =
    if regOk r && immOk 10 v then
      .ok ((fmt m).opcode ++ BitVec.ofNat 4 r ++ BitVec.ofInt 10 v)
    else .error .valueOutOfRange := by
  cases hr : regOk r <;> cases hv : immOk 10 v <;>
    simp only [encodeLS, regField_eq, immField_eq, hr, hv, Config.immWidthLS] <;> rfl

theorem encodeJ_eq (m : Mnemonic) (v : Int) : encodeJ m v =
    if immOk 14 v then .ok ((fmt m).opcode ++ BitVec.ofInt 14 v) else .error .valueOutOfRange := by
  cases hv : immOk 14 v <;> simp only [encodeJ, immField_eq, hv, Config.immWidthJ] <;> rfl

/-! ### The concatenations as sums -/

theorem toNat_ofInt_emod (w : Nat) (v : Int) :
    (BitVec.ofInt w v).toNat = (v % (2 : Int) ^ w).toNat := by
  simp [BitVec.toNat_ofInt]

/-- `uint(a ++ b) = uint(a) * 2^n + uint(b)` (spec/00_scope.md section 5). -/
theorem toNat_append_add {m n : Nat} (x : BitVec m) (y : BitVec n) :
    (x ++ y).toNat = x.toNat * 2 ^ n + y.toNat := by
  rw [BitVec.toNat_append, ← Nat.shiftLeft_add_eq_or_of_lt y.isLt, Nat.shiftLeft_eq]

theorem regOk_iff {i : Nat} : regOk i = true ↔ i ≤ 15 := by simp [regOk]

theorem toNat_ofNat4 {i : Nat} (h : i ≤ 15) : (BitVec.ofNat 4 i).toNat = i := by
  rw [BitVec.toNat_ofNat, Nat.mod_eq_of_lt (by omega)]

theorem toNat_ofInt6 (v : Int) : (BitVec.ofInt 6 v).toNat = (v % 64).toNat := toNat_ofInt_emod 6 v
theorem toNat_ofInt10 (v : Int) : (BitVec.ofInt 10 v).toNat = (v % 1024).toNat := toNat_ofInt_emod 10 v
theorem toNat_ofInt14 (v : Int) : (BitVec.ofInt 14 v).toNat = (v % 16384).toNat := toNat_ofInt_emod 14 v

/-- Format R as a sum (R100). -/
theorem catR_toNat (o : BitVec 6) {d a b : Nat} (hd : d ≤ 15) (ha : a ≤ 15) (hb : b ≤ 15) :
    (o ++ BitVec.ofNat 4 d ++ BitVec.ofNat 4 a ++ BitVec.ofNat 4 b ++ 0b00#2 : Word).toNat
      = o.toNat * 16384 + d * 1024 + a * 64 + b * 4 := by
  rw [toNat_append_add, toNat_append_add, toNat_append_add, toNat_append_add, toNat_ofNat4 hd,
    toNat_ofNat4 ha, toNat_ofNat4 hb]
  simp only [BitVec.toNat_ofNat]
  omega

/-- Formats I and B as a sum (R110, R135). -/
theorem catRRI_toNat (o : BitVec 6) {d a : Nat} (hd : d ≤ 15) (ha : a ≤ 15) (v : Int) :
    (o ++ BitVec.ofNat 4 d ++ BitVec.ofNat 4 a ++ BitVec.ofInt 6 v : Word).toNat
      = o.toNat * 16384 + d * 1024 + a * 64 + (v % 64).toNat := by
  rw [toNat_append_add, toNat_append_add, toNat_append_add, toNat_ofNat4 hd, toNat_ofNat4 ha,
    toNat_ofInt6]
  omega

/-- Format LS as a sum (R120). -/
theorem catLS_toNat (o : BitVec 6) {r : Nat} (hr : r ≤ 15) (v : Int) :
    (o ++ BitVec.ofNat 4 r ++ BitVec.ofInt 10 v : Word).toNat
      = o.toNat * 16384 + r * 1024 + (v % 1024).toNat := by
  rw [toNat_append_add, toNat_append_add, toNat_ofNat4 hr, toNat_ofInt10]
  omega

/-- Format J as a sum (R130). -/
theorem catJ_toNat (o : BitVec 6) (v : Int) :
    (o ++ BitVec.ofInt 14 v : Word).toNat = o.toNat * 16384 + (v % 16384).toNat := by
  rw [toNat_append_add, toNat_ofInt14]
  omega

/-- A word is the vector of its sum. -/
theorem eq_ofNat_of_toNat {w : Word} {n : Nat} (h : w.toNat = n) : w = BitVec.ofNat 20 n := by
  rw [← h]; simp

/-! ### The renderer -/

theorem hexDigit_injective {a b : BitVec 4} (h : hexDigit a = hexDigit b) : a = b := by
  have : ∀ a b : BitVec 4, hexDigit a = hexDigit b → a = b := by decide
  exact this a b h

theorem hex_length (w : Word) : (hex w).length = 5 := rfl

end Sys2Proof.Machine
end

