-- ==== Sys2Proof/Laws/PerInstr.lean ====
section
/-! SUPPORT. Statements about every instruction as it is written, one lemma per constructor. -/

namespace Sys2Proof.Laws

/-- `W[19:14]` as a quotient. -/
theorem opcode_bits (w : Word) : (w.extractLsb' 14 6).toNat = w.toNat / 16384 := by
  have := w.isLt
  rw [BitVec.extractLsb'_toNat, Nat.shiftRight_eq_div_pow]
  omega

/-- A word whose sum has the opcode's weight in front has that opcode. -/
theorem opcode_of_sum (o : BitVec 6) {n : Nat} (h : n < 16384) :
    (BitVec.ofNat 20 (o.toNat * 16384 + n)).extractLsb' 14 6 = o := by
  apply BitVec.eq_of_toNat_eq
  have := o.isLt
  rw [opcode_bits, BitVec.toNat_ofNat]
  omega

theorem opcode_wordR (m : Mnemonic) {d a b : Nat} (h : (regOk d && regOk a && regOk b) = true) :
    (wordR m d a b).extractLsb' 14 6 = (fmt m).opcode := by
  simp only [Bool.and_eq_true, Machine.regOk_iff] at h
  rw [wordR, Nat.add_assoc, Nat.add_assoc]
  exact opcode_of_sum _ (by omega)

theorem opcode_wordRRI (m : Mnemonic) {d a : Nat} {v : Int} {b : Bool}
    (h : (regOk d && regOk a && b) = true) :
    (wordRRI m d a v).extractLsb' 14 6 = (fmt m).opcode := by
  simp only [Bool.and_eq_true, Machine.regOk_iff] at h
  rw [wordRRI, Nat.add_assoc, Nat.add_assoc]
  exact opcode_of_sum _ (by omega)

theorem opcode_wordLS (m : Mnemonic) {r : Nat} {v : Int} {b : Bool} (h : (regOk r && b) = true) :
    (wordLS m r v).extractLsb' 14 6 = (fmt m).opcode := by
  simp only [Bool.and_eq_true, Machine.regOk_iff] at h
  rw [wordLS, Nat.add_assoc]
  exact opcode_of_sum _ (by omega)

theorem opcode_wordJ (m : Mnemonic) (v : Int) :
    (wordJ m v).extractLsb' 14 6 = (fmt m).opcode :=
  opcode_of_sum _ (by omega)

/-- R46: the word of a well-formed instruction carries its mnemonic's opcode in `W[19:14]`. -/
def OpcodeField.Statement (i : Instr) : Prop :=
  i.wf = true → (encode i).extractLsb' 14 6 = (fmt i.mnemonic).opcode

theorem OpcodeField.add (rd rs1 rs2 : Nat) : OpcodeField.Statement (.add rd rs1 rs2) :=
  fun h => opcode_wordR _ h

theorem OpcodeField.or (rd rs1 rs2 : Nat) : OpcodeField.Statement (.or rd rs1 rs2) :=
  fun h => opcode_wordR _ h

theorem OpcodeField.nand (rd rs1 rs2 : Nat) : OpcodeField.Statement (.nand rd rs1 rs2) :=
  fun h => opcode_wordR _ h

theorem OpcodeField.sub (rd rs1 rs2 : Nat) : OpcodeField.Statement (.sub rd rs1 rs2) :=
  fun h => opcode_wordR _ h

theorem OpcodeField.sll (rd rs1 rs2 : Nat) : OpcodeField.Statement (.sll rd rs1 rs2) :=
  fun h => opcode_wordR _ h

theorem OpcodeField.addi (rd rs1 : Nat) (imm : Int) : OpcodeField.Statement (.addi rd rs1 imm) :=
  fun h => opcode_wordRRI _ h

theorem OpcodeField.ori (rd rs1 : Nat) (imm : Int) : OpcodeField.Statement (.ori rd rs1 imm) :=
  fun h => opcode_wordRRI _ h

theorem OpcodeField.nandi (rd rs1 : Nat) (imm : Int) : OpcodeField.Statement (.nandi rd rs1 imm) :=
  fun h => opcode_wordRRI _ h

theorem OpcodeField.subi (rd rs1 : Nat) (imm : Int) : OpcodeField.Statement (.subi rd rs1 imm) :=
  fun h => opcode_wordRRI _ h

theorem OpcodeField.slli (rd rs1 : Nat) (imm : Int) : OpcodeField.Statement (.slli rd rs1 imm) :=
  fun h => opcode_wordRRI _ h

theorem OpcodeField.ld (r : Nat) (imm : Int) : OpcodeField.Statement (.ld r imm) :=
  fun h => opcode_wordLS _ h

theorem OpcodeField.st (r : Nat) (imm : Int) : OpcodeField.Statement (.st r imm) :=
  fun h => opcode_wordLS _ h

theorem OpcodeField.jump (imm : Int) : OpcodeField.Statement (.jump imm) :=
  fun _ => opcode_wordJ _ _

theorem OpcodeField.beq (r1 r2 : Nat) (imm : Int) : OpcodeField.Statement (.beq r1 r2 imm) :=
  fun h => opcode_wordRRI _ h

theorem OpcodeField.blt (r1 r2 : Nat) (imm : Int) : OpcodeField.Statement (.blt r1 r2 imm) :=
  fun h => opcode_wordRRI _ h

theorem OpcodeField.bgt (r1 r2 : Nat) (imm : Int) : OpcodeField.Statement (.bgt r1 r2 imm) :=
  fun h => opcode_wordRRI _ h

theorem OpcodeField.ble (r1 r2 : Nat) (imm : Int) : OpcodeField.Statement (.ble r1 r2 imm) :=
  fun h => opcode_wordRRI _ h

theorem OpcodeField.bge (r1 r2 : Nat) (imm : Int) : OpcodeField.Statement (.bge r1 r2 imm) :=
  fun h => opcode_wordRRI _ h

end Sys2Proof.Laws
end

