-- ==== Sys2Proof/Laws/State.lean ====
section
/-! SUPPORT. One lemma per field for each update of State, and what the sequencer's shared operations
can do. -/

namespace Sys2Proof.Machine

/-! ### Field by field -/

@[simp] theorem State.reset_idx : State.reset.idx = 0 := rfl
@[simp] theorem State.reset_out : State.reset.out = [] := rfl
@[simp] theorem State.reset_fault : State.reset.fault = none := rfl
@[simp] theorem State.reset_input : State.reset.input = [] := rfl

@[simp] theorem emit_idx (w : Word) (s : State) : (emit w s).idx = s.idx + 1 := rfl
@[simp] theorem emit_out (w : Word) (s : State) : (emit w s).out = s.out ++ [hex w] := rfl
@[simp] theorem emit_fault (w : Word) (s : State) : (emit w s).fault = s.fault := rfl
@[simp] theorem emit_input (w : Word) (s : State) : (emit w s).input = s.input.tail := rfl

@[simp] theorem raiseError_idx (k : ErrorKind) (s : State) : (raiseError k s).idx = s.idx := rfl
@[simp] theorem raiseError_out (k : ErrorKind) (s : State) : (raiseError k s).out = s.out := rfl
@[simp] theorem raiseError_fault (k : ErrorKind) (s : State) :
    (raiseError k s).fault = some ⟨k, s.idx⟩ := rfl
@[simp] theorem raiseError_input (k : ErrorKind) (s : State) : (raiseError k s).input = s.input := rfl

@[simp] theorem startRun_idx (lines : List Line) (s : State) : (startRun lines s).idx = 0 := rfl
@[simp] theorem startRun_out (lines : List Line) (s : State) : (startRun lines s).out = [] := rfl
@[simp] theorem startRun_fault (lines : List Line) (s : State) : (startRun lines s).fault = none := rfl
@[simp] theorem startRun_input (lines : List Line) (s : State) : (startRun lines s).input = lines := rfl

@[simp] theorem presentLine_idx (l : Line) (s : State) : (presentLine l s).idx = s.idx := rfl
@[simp] theorem presentLine_out (l : Line) (s : State) : (presentLine l s).out = s.out := rfl
@[simp] theorem presentLine_fault (l : Line) (s : State) : (presentLine l s).fault = s.fault := rfl
@[simp] theorem presentLine_input (l : Line) (s : State) : (presentLine l s).input = l :: s.input := rfl

/-- Two states are equal when their four fields are. -/
theorem State.eq_of_fields {s t : State} (hi : s.idx = t.idx) (ho : s.out = t.out)
    (hf : s.fault = t.fault) (hn : s.input = t.input) : s = t := by
  cases s; cases t; simp_all

/-! ### Delivering a result -/

theorem deliver_faulted {s : State} {e : ErrorRecord} (h : s.fault = some e)
    (r : Except ErrorKind Word) : deliver r s = .fault (.runAborted e.kind e.index) := by
  simp [deliver, h]

theorem deliver_ok {s : State} (h : s.fault = none) (w : Word) :
    deliver (.ok w) s = .next (emit w s) := by
  simp [deliver, h]

theorem deliver_error {s : State} (h : s.fault = none) (k : ErrorKind) :
    deliver (.error k) s = .next (raiseError k s) := by
  simp [deliver, h]

/-- Everything `deliver` can do when it answers a next state. -/
theorem deliver_next {r : Except ErrorKind Word} {s t : State} (h : deliver r s = .next t) :
    s.fault = none ∧ ((∃ w, r = .ok w ∧ t = emit w s) ∨ ∃ k, r = .error k ∧ t = raiseError k s) := by
  cases hf : s.fault with
  | some e => rw [deliver_faulted hf] at h; cases h
  | none =>
    cases r with
    | ok w => rw [deliver_ok hf] at h; cases h; exact ⟨rfl, .inl ⟨w, rfl, rfl⟩⟩
    | error k => rw [deliver_error hf] at h; cases h; exact ⟨rfl, .inr ⟨k, rfl, rfl⟩⟩

end Sys2Proof.Machine
end

