-- ==== Sys2Proof/Laws/Step.lean ====
section
/-! SUPPORT. What `exec` and `step` can do, said once over `deliver`. -/

namespace Sys2Proof.Machine

/-- Every meaning delivers the field-level datapath's result. -/
theorem exec_eq_deliver (i : Instr) (s : State) : exec i s = deliver (encodeFields i) s := by
  cases i <;> rfl

/-- `EncodeLine` as a word. -/
def lineWord (l : Line) : Except ErrorKind Word := (encodeLine l).map Prod.fst

theorem encodeLine_of_parse_error {l : Line} {k : ErrorKind} (h : parseLine l = .error k) :
    encodeLine l = .error k := by
  simp only [encodeLine, h]; rfl

theorem encodeLine_of_parse {l : Line} {i : Instr} (h : parseLine l = .ok i) :
    encodeLine l = (encodeFields i).map fun w => (w, hex w) := by
  simp only [encodeLine, h]
  cases hf : encodeFields i <;> simp only [bind, Except.bind, hf] <;> rfl

/-- The hex text of a line that encodes is that of its word. -/
theorem encodeLine_hex {l : Line} {w : Word} {h : Line} (he : encodeLine l = .ok (w, h)) :
    h = hex w := by
  cases hp : parseLine l with
  | error k => rw [encodeLine_of_parse_error hp] at he; cases he
  | ok i =>
    rw [encodeLine_of_parse hp] at he
    cases hf : encodeFields i with
    | error k => rw [hf] at he; cases he
    | ok w' => rw [hf] at he; cases he; rfl

theorem step_faulted {s : State} {e : ErrorRecord} (h : s.fault = some e) :
    step s = .fault (.runAborted e.kind e.index) := by
  simp [step, stepWith, h]

theorem step_noLine {s : State} (h : s.fault = none) (hi : s.input = []) :
    step s = .refused .noLinePresented := by
  simp [step, stepWith, h, hi]

/-- A step with a line to read delivers that line's result. -/
theorem step_line {s : State} {l : Line} {rest : List Line} (hi : s.input = l :: rest) :
    step s = deliver (lineWord l) s := by
  cases hf : s.fault with
  | some e => rw [step_faulted hf, deliver_faulted hf]
  | none =>
    cases hp : parseLine l with
    | error k => simp [step, stepWith, hf, hi, hp, lineWord, encodeLine_of_parse_error hp, Except.map]
    | ok i =>
      simp only [step, stepWith, hf, hi, hp, exec_eq_deliver, lineWord, encodeLine_of_parse hp]
      cases encodeFields i <;> rfl

theorem lineWord_ok {l : Line} {w : Word} {h : Line} (he : encodeLine l = .ok (w, h)) :
    lineWord l = .ok w := by rw [lineWord, he]; rfl

theorem lineWord_error {l : Line} {k : ErrorKind} (he : encodeLine l = .error k) :
    lineWord l = .error k := by rw [lineWord, he]; rfl

/-- Everything a step can do when it answers a next state: no error was recorded and the line at the head
of `input` either encoded and was emitted, or took its error. -/
theorem step_next {s t : State} (h : step s = .next t) :
    s.fault = none ∧ ∃ l rest, s.input = l :: rest ∧
      ((∃ w, encodeLine l = .ok (w, hex w) ∧ t = emit w s) ∨
       ∃ k, encodeLine l = .error k ∧ t = raiseError k s) := by
  cases hi : s.input with
  | nil =>
    cases hf : s.fault with
    | none => rw [step_noLine hf hi] at h; cases h
    | some e => rw [step_faulted hf] at h; cases h
  | cons l rest =>
    rw [step_line hi] at h
    obtain ⟨hf, ⟨w, hw, rfl⟩ | ⟨k, hk, rfl⟩⟩ := deliver_next h
    all_goals refine ⟨hf, l, rest, rfl, ?_⟩
    · left
      cases he : encodeLine l with
      | error k => rw [lineWord_error he] at hw; cases hw
      | ok p =>
        obtain ⟨w', h'⟩ := p
        rw [lineWord_ok he] at hw; cases hw
        exact ⟨w, by rw [encodeLine_hex he], rfl⟩
    · right
      cases he : encodeLine l with
      | error k' => rw [lineWord_error he] at hk; cases hk; exact ⟨k, rfl, rfl⟩
      | ok p =>
        obtain ⟨w', h'⟩ := p
        rw [lineWord_ok he] at hk; cases hk

/-! ### Runs -/

theorem run_next {s t : State} (h : step s = .next t) (n : Nat) :
    core.run (n + 1) s = core.run n t := by
  have h : core.step s = .next t := h
  simp only [Host.Core.run, h]

theorem run_fault {s : State} {r : Fault} (h : step s = .fault r) (n : Nat) :
    core.run (n + 1) s = .fault r := by
  have h : core.step s = .fault r := h
  simp only [Host.Core.run, h]

theorem run_refused {s : State} {r : Refusal} (h : step s = .refused r) (n : Nat) :
    core.run (n + 1) s = .refused r := by
  have h : core.step s = .refused r := h
  simp only [Host.Core.run, h]

end Sys2Proof.Machine
end

