-- ==== Sys2Proof/Laws/Text.lean ====
section
/-! SUPPORT. The front end: tokens, lookup, operand tokens, and the printed form. -/

namespace Sys2Proof

/-! ### Tokens -/

/-- No character of the string is a delimiter. -/
def NoDelim (t : Line) : Prop := ∀ c ∈ t, isDelim c = false

theorem tokens_nil : tokens [] = [] := rfl

theorem tokens_delim {c : Byte} (h : isDelim c = true) (l : Line) : tokens (c :: l) = tokens l := by
  simp [tokens, tokensFrom, h]

/-- Reading a run of non-delimiters extends the token being read. -/
theorem tokensFrom_run (cur t l : Line) (h : NoDelim t) :
    tokensFrom cur (t ++ l) = tokensFrom (cur ++ t) l := by
  induction t generalizing cur with
  | nil => simp
  | cons c cs ih =>
    have hc := h c (by simp)
    rw [List.cons_append, tokensFrom, if_neg (by simp [hc]), ih _ fun d hd => h d (by simp [hd])]
    simp

theorem tokens_single {t : Line} (h0 : t ≠ []) (h : NoDelim t) : tokens t = [t] := by
  have := tokensFrom_run [] t [] h
  simp only [List.append_nil, List.nil_append] at this
  simp [tokens, this, tokensFrom, h0]

theorem tokens_run {t : Line} {c : Byte} (h0 : t ≠ []) (h : NoDelim t) (hc : isDelim c = true)
    (l : Line) : tokens (t ++ c :: l) = t :: tokens l := by
  rw [tokens, tokensFrom_run [] t _ h]
  simp [tokensFrom, h0, hc, tokens]

/-- The tokens produced from a partial token are non-empty and hold no delimiter. -/
theorem tokensFrom_mem {cur l t : Line} (hcur : NoDelim cur) (h : t ∈ tokensFrom cur l) :
    t ≠ [] ∧ NoDelim t := by
  induction l generalizing cur with
  | nil =>
    by_cases hn : cur = []
    · simp [tokensFrom, hn] at h
    · simp only [tokensFrom, if_neg hn, List.mem_singleton] at h; subst h; exact ⟨hn, hcur⟩
  | cons c cs ih =>
    by_cases hc : isDelim c = true
    · by_cases hn : cur = []
      · simp only [tokensFrom, if_pos hc, if_pos hn] at h; exact ih (by simp [NoDelim]) h
      · simp only [tokensFrom, if_pos hc, if_neg hn, List.mem_cons] at h
        rcases h with rfl | h
        · exact ⟨hn, hcur⟩
        · exact ih (by simp [NoDelim]) h
    · rw [tokensFrom, if_neg hc] at h
      refine ih ?_ h
      intro d hd
      rcases List.mem_append.1 hd with hd | hd
      · exact hcur d hd
      · rw [List.mem_singleton.1 hd]; simpa using hc

theorem tokens_mem {l t : Line} (h : t ∈ tokens l) : t ≠ [] ∧ NoDelim t :=
  tokensFrom_mem (by simp [NoDelim]) h

/-! ### Lookup -/

theorem mem_mnemonics (m : Mnemonic) : m ∈ mnemonics := by cases m <;> decide

theorem spelling_injective {m m' : Mnemonic} (h : spelling m = spelling m') : m = m' := by
  have : ∀ m ∈ mnemonics, ∀ m' ∈ mnemonics, spelling m = spelling m' → m = m' := by decide
  exact this m (mem_mnemonics m) m' (mem_mnemonics m') h

theorem upper_spelling (m : Mnemonic) : upper (spelling m) = spelling m := by
  cases m <;> decide

theorem lookup_ok_iff {t : Line} {ts : List Line} {m : Mnemonic} :
    lookup (t :: ts) = .ok m ↔ upper t = spelling m := by
  cases hf : mnemonics.find? fun m => spelling m == upper t with
  | some m' =>
    have := List.find?_some hf
    simp only [beq_iff_eq] at this
    simp only [lookup, hf, Except.ok.injEq]
    exact ⟨fun h => h ▸ this.symm, fun h => spelling_injective (this.trans h)⟩
  | none =>
    simp only [lookup, hf, reduceCtorEq, false_iff]
    intro h
    have := List.find?_eq_none.1 hf m (mem_mnemonics m)
    simp [h] at this

/-- `Lookup` fails in one way. -/
theorem lookup_error {toks : List Line} {k : ErrorKind} (h : lookup toks = .error k) :
    k = .unknownInstruction := by
  cases toks with
  | nil => cases h; rfl
  | cons t ts =>
    simp only [lookup] at h
    split at h <;> cases h
    rfl

/-- `Lookup` reads token 0 only. -/
theorem lookup_append {toks : List Line} {m : Mnemonic} (h : lookup toks = .ok m)
    (extra : List Line) : lookup (toks ++ extra) = .ok m := by
  cases toks with
  | nil => cases h
  | cons t ts => exact h

/-! ### Digit strings -/

theorem isDigit_iff (c : Byte) : isDigit c = true ↔ 48 ≤ c.toNat ∧ c.toNat ≤ 57 := by
  simp [isDigit, BitVec.le_def]

/-- The value of a digit string read after `n` (R75). -/
def digitsValue (n : Nat) (ds : Line) : Nat := ds.foldl (fun n c => 10 * n + (c.toNat - 48)) n

theorem parseDigits_ok {ds : Line} (h : ∀ c ∈ ds, isDigit c = true) (n : Nat) :
    parseDigits n ds = .ok (digitsValue n ds) := by
  induction ds generalizing n with
  | nil => rfl
  | cons c cs ih =>
    rw [parseDigits, if_pos (h c (by simp)), ih fun d hd => h d (by simp [hd])]
    rfl

theorem parseDigits_error {ds : Line} (h : ∃ c ∈ ds, isDigit c = false) (n : Nat) :
    parseDigits n ds = .error .malformedOperand := by
  induction ds generalizing n with
  | nil => simp at h
  | cons c cs ih =>
    by_cases hc : isDigit c = true
    · obtain ⟨d, hd, hd'⟩ := h
      rcases List.mem_cons.1 hd with rfl | hd
      · rw [hc] at hd'; cases hd'
      · rw [parseDigits, if_pos hc, ih ⟨d, hd, hd'⟩]
    · rw [parseDigits, if_neg hc]

/-- The two outcomes of the digit loop. -/
theorem parseDigits_cases (ds : Line) :
    ((∀ c ∈ ds, isDigit c = true) ∧ ∀ n, parseDigits n ds = .ok (digitsValue n ds)) ∨
    ((∃ c ∈ ds, isDigit c = false) ∧ ∀ n, parseDigits n ds = .error .malformedOperand) := by
  by_cases h : ∀ c ∈ ds, isDigit c = true
  · exact .inl ⟨h, parseDigits_ok h⟩
  · have h' : ∃ c ∈ ds, isDigit c = false := by simpa using h
    exact .inr ⟨h', parseDigits_error h'⟩

/-! ### The printed form -/

theorem digit_byte (k : Nat) (h : k < 10) : (BitVec.ofNat 8 (48 + k)).toNat = 48 + k := by
  rw [BitVec.toNat_ofNat]; omega

theorem isDigit_byte (k : Nat) (h : k < 10) : isDigit (BitVec.ofNat 8 (48 + k)) = true := by
  rw [isDigit_iff, digit_byte k h]; omega

theorem digitsFrom_isDigit {fuel n : Nat} {acc : Line} (h : ∀ c ∈ acc, isDigit c = true) :
    ∀ c ∈ digitsFrom fuel n acc, isDigit c = true := by
  induction fuel generalizing n acc with
  | zero => exact h
  | succ f ih =>
    have h' : ∀ c ∈ BitVec.ofNat 8 (48 + n % 10) :: acc, isDigit c = true := by
      intro c hc
      rcases List.mem_cons.1 hc with rfl | hc
      · exact isDigit_byte _ (Nat.mod_lt _ (by decide))
      · exact h c hc
    simp only [digitsFrom]
    split
    · exact h'
    · exact ih h'

theorem digitsFrom_ne_nil {fuel n : Nat} {acc : Line} (h : acc ≠ []) : digitsFrom fuel n acc ≠ [] := by
  induction fuel generalizing n acc with
  | zero => exact h
  | succ f ih => simp only [digitsFrom]; split <;> simp [ih]

/-- The printed digits of `n`, followed by `acc`, denote what `acc` denotes after `n`. -/
theorem digitsValue_digitsFrom {fuel n : Nat} (acc : Line) (h : n < fuel) :
    digitsValue 0 (digitsFrom fuel n acc) = digitsValue n acc := by
  induction fuel generalizing n acc with
  | zero => omega
  | succ f ih =>
    have hd := digit_byte (n % 10) (Nat.mod_lt _ (by decide))
    have hstep : ∀ q, digitsValue q (BitVec.ofNat 8 (48 + n % 10) :: acc)
        = digitsValue (10 * q + n % 10) acc := by
      intro q; simp only [digitsValue, List.foldl_cons, hd]; congr 1; omega
    simp only [digitsFrom]
    split
    · rename_i h0
      rw [hstep]; congr 1; omega
    · rename_i h0
      rw [ih _ (by omega), hstep]; congr 1; omega

theorem printNat_isDigit (n : Nat) : ∀ c ∈ printNat n, isDigit c = true :=
  digitsFrom_isDigit (by simp)

theorem printNat_ne_nil (n : Nat) : printNat n ≠ [] := by
  simp only [printNat, digitsFrom]
  split
  · simp
  · exact digitsFrom_ne_nil (by simp)

theorem parseDigits_printNat (n : Nat) : parseDigits 0 (printNat n) = .ok n := by
  rw [parseDigits_ok (printNat_isDigit n), printNat, digitsValue_digitsFrom _ (by omega)]
  rfl

theorem parseReg_printReg (i : Nat) : parseReg (printReg i) = .ok i := by
  have hd := parseDigits_printNat i
  have hn := printNat_ne_nil i
  rw [printReg]
  generalize printNat i = ds at hd hn
  cases ds with
  | nil => exact absurd rfl hn
  | cons d ds => simpa [parseReg] using hd

theorem parseMagnitude_printNat (n : Nat) : parseMagnitude (printNat n) = .ok n := by
  have hd := parseDigits_printNat n
  have hn := printNat_ne_nil n
  generalize printNat n = ds at hd hn
  cases ds with
  | nil => exact absurd rfl hn
  | cons d ds => exact hd

theorem parseImm_printImm (v : Int) : parseImm (printImm v) = .ok v := by
  have hm := parseMagnitude_printNat v.natAbs
  unfold printImm
  split
  · rename_i h
    rw [parseImm, if_pos rfl, hm]
    exact congrArg Except.ok (show -(v.natAbs : Int) = v by omega)
  · rename_i h
    have hn := printNat_ne_nil v.natAbs
    have hg := printNat_isDigit v.natAbs
    generalize printNat v.natAbs = ds at hm hn hg
    cases ds with
    | nil => exact absurd rfl hn
    | cons d ds =>
      have : d ≠ Config.minusSign := by
        rintro rfl
        exact absurd (hg Config.minusSign (by simp)) (by decide)
      rw [parseImm, if_neg this, hm]
      exact congrArg Except.ok (show (v.natAbs : Int) = v by omega)

theorem noDelim_of_isDigit {c : Byte} (h : isDigit c = true) : isDelim c = false := by
  have : ∀ c : Byte, isDigit c = true → isDelim c = false := by decide
  exact this c h

theorem noDelim_printReg (i : Nat) : NoDelim (printReg i) := by
  intro c hc
  rcases List.mem_cons.1 hc with rfl | hc
  · decide
  · exact noDelim_of_isDigit (printNat_isDigit i c hc)

theorem noDelim_printImm (v : Int) : NoDelim (printImm v) := by
  intro c hc
  unfold printImm at hc
  split at hc
  · rcases List.mem_cons.1 hc with rfl | hc
    · decide
    · exact noDelim_of_isDigit (printNat_isDigit _ c hc)
  · exact noDelim_of_isDigit (printNat_isDigit _ c hc)

theorem printReg_ne_nil (i : Nat) : printReg i ≠ [] := by simp [printReg]

theorem printImm_ne_nil (v : Int) : printImm v ≠ [] := by
  unfold printImm; split
  · simp
  · exact printNat_ne_nil _

theorem noDelim_spelling (m : Mnemonic) : NoDelim (spelling m) := by
  have : ∀ m ∈ mnemonics, ∀ c ∈ spelling m, isDelim c = false := by decide
  exact this m (mem_mnemonics m)

theorem spelling_ne_nil (m : Mnemonic) : spelling m ≠ [] := by cases m <;> decide

/-- An operand in print is a token. -/
def IsToken (t : Line) : Prop := t ≠ [] ∧ NoDelim t

theorem isToken_printReg (i : Nat) : IsToken (printReg i) := ⟨printReg_ne_nil i, noDelim_printReg i⟩
theorem isToken_printImm (v : Int) : IsToken (printImm v) := ⟨printImm_ne_nil v, noDelim_printImm v⟩

/-- Tokens joined by comma and space are read back. -/
theorem tokens_intersperse {ops : List Line} (h : ∀ t ∈ ops, IsToken t) :
    tokens (ops.intersperse (ascii ", ")).flatten = ops := by
  have hc : ascii ", " = [0x2C#8, 0x20#8] := by decide
  induction ops with
  | nil => rfl
  | cons t ts ih =>
    obtain ⟨h0, hd⟩ := h t (by simp)
    cases ts with
    | nil => simpa using tokens_single h0 hd
    | cons u us =>
      have ih := ih fun x hx => h x (by simp [hx])
      rw [hc] at ih ⊢
      simp only [List.intersperse_cons_cons, List.flatten_cons, List.cons_append, List.nil_append] at ih ⊢
      rw [tokens_run h0 hd (by decide), tokens_delim (by decide), ih]

/-- The tokens of a printed line are its mnemonic and its operands. -/
theorem tokens_printWith (m : Mnemonic) {ops : List Line} (h : ∀ t ∈ ops, IsToken t) :
    tokens (printWith m ops) = spelling m :: ops := by
  have hs : ascii " " = [0x20#8] := by decide
  rw [printWith, printOperands, hs, List.cons_append, List.nil_append,
    tokens_run (spelling_ne_nil m) (noDelim_spelling m) (by decide), tokens_intersperse h]

theorem lookup_spelling (m : Mnemonic) (ts : List Line) : lookup (spelling m :: ts) = .ok m :=
  lookup_ok_iff.2 (upper_spelling m)

/-- A printed line is parsed by its mnemonic's operand positions. -/
theorem parseLine_printWith (m : Mnemonic) {ops : List Line} (h : ∀ t ∈ ops, IsToken t) :
    parseLine (printWith m ops) = parseOperands m (spelling m :: ops) := by
  simp only [parseLine, tokens_printWith m h, lookup_spelling]
  rfl

/-! ### Operand positions -/

theorem parseReg_error {t : Line} {k : ErrorKind} (h : parseReg t = .error k) :
    k = .malformedOperand := by
  unfold parseReg at h
  split at h
  · split at h
    · rename_i d ds _
      obtain ⟨_, hp⟩ | ⟨_, hp⟩ := parseDigits_cases (d :: ds) <;> rw [hp] at h <;> cases h
      rfl
    · cases h; rfl
  · cases h; rfl

theorem parseMagnitude_error {t : Line} {k : ErrorKind} (h : parseMagnitude t = .error k) :
    k = .malformedOperand := by
  unfold parseMagnitude at h
  split at h
  · cases h; rfl
  · rename_i d ds
    obtain ⟨_, hp⟩ | ⟨_, hp⟩ := parseDigits_cases (d :: ds) <;> rw [hp] at h <;> cases h
    rfl

theorem parseImm_error {t : Line} {k : ErrorKind} (h : parseImm t = .error k) :
    k = .malformedOperand := by
  unfold parseImm at h
  split at h
  · cases h; rfl
  · split at h
    · rename_i cs _
      cases hm : parseMagnitude cs <;> rw [hm] at h <;> cases h
      exact parseMagnitude_error hm
    · rename_i c cs _
      cases hm : parseMagnitude (c :: cs) <;> rw [hm] at h <;> cases h
      exact parseMagnitude_error hm

theorem regAt_error {toks : List Line} {j : Nat} {k : ErrorKind} (h : regAt toks j = .error k) :
    (toks[j]? = none ∧ k = .operandCountMismatch) ∨
    ∃ t, toks[j]? = some t ∧ parseReg t = .error k ∧ k = .malformedOperand := by
  unfold regAt at h
  split at h
  · exact .inr ⟨_, ‹_›, h, parseReg_error h⟩
  · cases h; exact .inl ⟨‹_›, rfl⟩

theorem immAt_error {toks : List Line} {j : Nat} {k : ErrorKind} (h : immAt toks j = .error k) :
    (toks[j]? = none ∧ k = .operandCountMismatch) ∨
    ∃ t, toks[j]? = some t ∧ parseImm t = .error k ∧ k = .malformedOperand := by
  unfold immAt at h
  split at h
  · exact .inr ⟨_, ‹_›, h, parseImm_error h⟩
  · cases h; exact .inl ⟨‹_›, rfl⟩

/-! ### What each class reads: an instruction exactly when every position reads its operand -/

theorem parseR_ok_iff {mk : Nat → Nat → Nat → Instr} {toks : List Line} {i : Instr} :
    parseR mk toks = .ok i ↔ ∃ d a b, regAt toks 1 = .ok d ∧ regAt toks 2 = .ok a ∧
      regAt toks 3 = .ok b ∧ mk d a b = i := by
  unfold parseR
  cases regAt toks 1 <;> cases regAt toks 2 <;> cases regAt toks 3 <;>
    simp [bind, Except.bind, pure, Except.pure]

theorem parseRRI_ok_iff {mk : Nat → Nat → Int → Instr} {toks : List Line} {i : Instr} :
    parseRRI mk toks = .ok i ↔ ∃ d a v, regAt toks 1 = .ok d ∧ regAt toks 2 = .ok a ∧
      immAt toks 3 = .ok v ∧ mk d a v = i := by
  unfold parseRRI
  cases regAt toks 1 <;> cases regAt toks 2 <;> cases immAt toks 3 <;>
    simp [bind, Except.bind, pure, Except.pure]

theorem parseLS_ok_iff {mk : Nat → Int → Instr} {toks : List Line} {i : Instr} :
    parseLS mk toks = .ok i ↔ ∃ r v, regAt toks 1 = .ok r ∧ immAt toks 2 = .ok v ∧ mk r v = i := by
  unfold parseLS
  cases regAt toks 1 <;> cases immAt toks 2 <;> simp [bind, Except.bind, pure, Except.pure]

theorem parseJ_ok_iff {mk : Int → Instr} {toks : List Line} {i : Instr} :
    parseJ mk toks = .ok i ↔ ∃ v, immAt toks 1 = .ok v ∧ mk v = i := by
  unfold parseJ
  cases immAt toks 1 <;> simp [bind, Except.bind, pure, Except.pure]

end Sys2Proof
end

