-- ==== Sys2Proof/Tests/Slice0.lean ====
section
/-! SUPPORT. Tests. Expected results come from spec/95_test_vectors.md and the worked examples of the
rules, or are worked out by hand from the encodings of spec/30_encoding.md. The witnesses show that the
hypotheses of the statements can be met. -/

namespace Sys2Proof.Tests

open Sys2Proof.Machine

/-- The state an outcome answers, if it answers one. -/
def answer : Host.Outcome State Fault Refusal → Option State
  | .next t => some t
  | _       => none

/-- The reset state with these lines presented. -/
def fed (lines : List Line) : State := { State.reset with input := lines }

/-- A state in which an error is recorded, as program P3 leaves it. -/
def failed : State :=
  { idx := 1, out := [ascii "14405"], fault := some ⟨.valueOutOfRange, 1⟩,
    input := [ascii "ORI R2, R1, 32", ascii "ADD R1, R2, R3"] }

/-! ### WellFormed refuses what each check is for -/

theorem test_wf_rd : (Instr.add 16 0 0).wf = false := by decide
theorem test_wf_rs1 : (Instr.sub 0 16 0).wf = false := by decide
theorem test_wf_rs2 : (Instr.sll 0 0 16).wf = false := by decide
theorem test_wf_imm6_high : (Instr.addi 0 0 32).wf = false := by decide
theorem test_wf_imm6_low : (Instr.bge 0 0 (-33)).wf = false := by decide
theorem test_wf_imm10_high : (Instr.ld 0 512).wf = false := by decide
theorem test_wf_imm10_low : (Instr.st 0 (-513)).wf = false := by decide
theorem test_wf_imm14_high : (Instr.jump 8192).wf = false := by decide
theorem test_wf_imm14_low : (Instr.jump (-8193)).wf = false := by decide
theorem test_wf_accepts_the_bounds :
    (Instr.nand 15 15 15).wf = true ∧ (Instr.slli 15 0 (-32)).wf = true ∧ (Instr.ld 15 511).wf = true ∧
    (Instr.st 0 (-512)).wf = true ∧ (Instr.jump (-8192)).wf = true := by decide

/-! ### One written-out word per instruction (R47 to R51, R54; the words of 95_test_vectors.md) -/

theorem test_word_add : decodeWord 0b00000000010010001100#20 = .ok (.add 1 2 3) := by decide
theorem test_word_or : decodeWord 0b00000101000101011000#20 = .ok (.or 4 5 6) := by decide
theorem test_word_nand : decodeWord 0b00001001111000100100#20 = .ok (.nand 7 8 9) := by decide
theorem test_word_sub : decodeWord 0b00001110101011110000#20 = .ok (.sub 10 11 12) := by decide
theorem test_word_sll : decodeWord 0b00010011011110111100#20 = .ok (.sll 13 14 15) := by decide
theorem test_word_addi : decodeWord 0b00010100010010100000#20 = .ok (.addi 1 2 (-32)) := by decide
theorem test_word_ori : decodeWord 0b00011000110100010101#20 = .ok (.ori 3 4 21) := by decide
theorem test_word_nandi : decodeWord 0b00011101010110111001#20 = .ok (.nandi 5 6 (-7)) := by decide
theorem test_word_subi : decodeWord 0b00100000010001000001#20 = .ok (.subi 1 1 1) := by decide
theorem test_word_slli : decodeWord 0b00100110001001000011#20 = .ok (.slli 8 9 3) := by decide
theorem test_word_ld : decodeWord 0b00101011110111111111#20 = .ok (.ld 15 511) := by decide
theorem test_word_st : decodeWord 0b00101100001000000000#20 = .ok (.st 0 (-512)) := by decide
theorem test_word_jump : decodeWord 0b00110010000000000000#20 = .ok (.jump (-8192)) := by decide
theorem test_word_beq : decodeWord 0b00110100010010111101#20 = .ok (.beq 1 2 (-3)) := by decide
theorem test_word_blt : decodeWord 0b00111000110100100000#20 = .ok (.blt 3 4 (-32)) := by decide
theorem test_word_bgt : decodeWord 0b00111101010110011111#20 = .ok (.bgt 5 6 31) := by decide
theorem test_word_ble : decodeWord 0b01000001111000000000#20 = .ok (.ble 7 8 0) := by decide
theorem test_word_bge : decodeWord 0b01000111110000111111#20 = .ok (.bge 15 0 (-1)) := by decide
/-- R56: 18 is the first opcode of no mnemonic. -/
theorem test_word_unassigned : decodeWord 0b01001000000000000000#20 = .error .unassignedOpcode := by decide
/-- R57: a format R word with padding 01. -/
theorem test_word_pad : decodeWord 0b00000000010010001101#20 = .error .nonzeroPad := by decide

/-! ### One line per instruction, read as text and encoded (95_test_vectors.md sections 2 to 6) -/

theorem test_line_add : encodeLine (ascii "ADD R0, R0, R1") = .ok (0x00004#20, ascii "00004") := by decide
theorem test_line_or : encodeLine (ascii "OR R15, R15, R15") = .ok (0x07FFC#20, ascii "07FFC") := by decide
theorem test_line_nand : encodeLine (ascii "nand R3, R1, R2") = .ok (0x08C48#20, ascii "08C48") := by decide
theorem test_line_sub : encodeLine (ascii "SUB R1, R3, R2") = .ok (0x0C4C8#20, ascii "0C4C8") := by decide
theorem test_line_sll : encodeLine (ascii "SLL R3, R3, R3") = .ok (0x10CCC#20, ascii "10CCC") := by decide
theorem test_line_addi : encodeLine (ascii "ADDI R1, R2, -007") = .ok (0x144B9#20, ascii "144B9") := by decide
theorem test_line_ori : encodeLine (ascii "ORI R15, R15, -1") = .ok (0x1BFFF#20, ascii "1BFFF") := by decide
theorem test_line_nandi : encodeLine (ascii "NANDI R3,R3,-1") = .ok (0x1CCFF#20, ascii "1CCFF") := by decide
theorem test_line_subi : encodeLine (ascii "SUBI R15, R15, -1") = .ok (0x23FFF#20, ascii "23FFF") := by decide
theorem test_line_slli : encodeLine (ascii "SLLI R15, R15, -32") = .ok (0x27FE0#20, ascii "27FE0") := by decide
theorem test_line_ld : encodeLine (ascii "  ld   R1 100") = .ok (0x28464#20, ascii "28464") := by decide
theorem test_line_st : encodeLine (ascii "ST R7, 256") = .ok (0x2DD00#20, ascii "2DD00") := by decide
theorem test_line_jump : encodeLine (ascii "JUMP -100") = .ok (0x33F9C#20, ascii "33F9C") := by decide
theorem test_line_beq : encodeLine (ascii "BEQ R2, R1, 4") = .ok (0x34844#20, ascii "34844") := by decide
theorem test_line_blt : encodeLine (ascii "BLT R1, R2, 5") = .ok (0x38485#20, ascii "38485") := by decide
theorem test_line_bgt : encodeLine (ascii "BGT R2, R1, 5") = .ok (0x3C845#20, ascii "3C845") := by decide
theorem test_line_ble : encodeLine (ascii "bLe R3,R15,31") = .ok (0x40FDF#20, ascii "40FDF") := by decide
theorem test_line_bge : encodeLine (ascii "BGE R9, R10, 7") = .ok (0x46687#20, ascii "46687") := by decide

/-! ### The front end (95_test_vectors.md sections 7 and 8) -/

theorem test_tokens : tokens (ascii "  ADD   R1 ,, R2 ,\tR3  ") =
    [ascii "ADD", ascii "R1", ascii "R2", ascii "R3"] := by decide
theorem test_tokens_comma_splits_a_number : tokens (ascii "1,000") = [ascii "1", ascii "000"] := by decide
theorem test_lowercase_register : encodeLine (ascii "add r1, r2, r3") = .error .malformedOperand := by decide
theorem test_missing_operand : encodeLine (ascii "ADD R1, R2") = .error .operandCountMismatch := by decide
theorem test_malformed_before_missing : encodeLine (ascii "ADD RX, R1") = .error .malformedOperand := by decide
theorem test_malformed_before_range : encodeLine (ascii "ADD R16, RX, R1") = .error .malformedOperand := by decide
theorem test_missing_before_range : encodeLine (ascii "ADD R16, R1") = .error .operandCountMismatch := by decide
theorem test_extra_operand : encodeLine (ascii "ADD R1, R2, R3, R99") = .ok (0x0048C#20, ascii "0048C") := by decide
theorem test_unknown : encodeLine (ascii "NOP") = .error .unknownInstruction := by decide
theorem test_only_delimiters : encodeLine (ascii ",,,") = .error .unknownInstruction := by decide
theorem test_register_literal : parseReg (ascii "15") = .error .malformedOperand := by decide
theorem test_register_zeros : parseReg (ascii "R00000000000000000000015") = .ok 15 := by decide
theorem test_immediate_plus : parseImm (ascii "+5") = .error .malformedOperand := by decide
theorem test_immediate_two_signs : parseImm (ascii "--5") = .error .malformedOperand := by decide
theorem test_immediate_minus_zero : parseImm (ascii "-0") = .ok 0 := by decide
theorem test_immediate_unbounded :
    parseImm (ascii "-99999999999999999999") = .ok (-99999999999999999999) := by decide
theorem test_hex_alphabet : hex 0x6789A#20 = ascii "6789A" ∧ hex 0xBCDEF#20 = ascii "BCDEF" := by decide
theorem test_print : printLine (.addi 1 2 (-1)) = ascii "ADDI R1, R2, -1" := by decide

/-! ### Steps of the sequencer -/

/-- Program P3, line 0. -/
theorem test_step_emits : answer (step (fed [ascii "ADDI R1, R0, 5"])) =
    some { idx := 1, out := [ascii "14405"], fault := none, input := [] } := by decide
/-- Program P3, line 1: `idx` and `out` keep their values. -/
theorem test_step_takes_the_error :
    answer (step { failed with fault := none }) = some failed := by decide
/-- R181: no step skips the failing line. -/
theorem test_step_after_the_error : step failed = .fault (.runAborted .valueOutOfRange 1) := rfl
/-- Program P5, a line that does not parse. -/
theorem test_step_unknown : (answer (step (fed [ascii "MUL R1, R2, R3"]))).map State.fault =
    some (some ⟨.unknownInstruction, 0⟩) := by decide
/-- Program P6: the empty run has no step. -/
theorem test_step_empty_run : step State.reset = .refused .noLinePresented := rfl
theorem test_run_stops_at_the_error :
    encodeRun [ascii "ADDI R1, R0, 5", ascii "ORI R2, R1, 32", ascii "ADD R1, R2, R3"] =
      .error ⟨.valueOutOfRange, 1⟩ := by decide
/-- The host's way to run an instruction: LD R15, -1 is 2BFFF. -/
theorem test_fetch_word : (answer (step (State.reset.withFetchWord 24 0x2BFFF))).map State.out =
    some [ascii "2BFFF"] := by decide
theorem test_table_word_too_wide : decodeTableWord 24 0x100000 = none := by decide
theorem test_ports_error : transact (ascii "JUMP 8192") =
    { ok := false, wordOut := none, hexOut := none, errOut := 4#3 } := by decide

/-! ### Witnesses: the hypotheses of each statement can be met, at the edges of their ranges -/

theorem witness_FormatTableHoldsTheEighteenRows : (fmt .BGE).opcode = (fmt .BGE).opcode := rfl
theorem witness_DecodeOfEncodeIsTheInstruction : (Instr.addi 15 0 (-32)).wf = true := by decide
theorem witness_EncodeOfDecodeIsTheWord : decodeWord 0x47FFF#20 = .ok (.bge 15 15 (-1)) := by decide
theorem witness_EncodeFieldsIsInjective : encodeFields (.jump (-1)) = .ok 0x33FFF#20 := by decide
theorem witness_NoUnassignedOpcodeAndNoOtherPad :
    encodeFields (.sll 15 15 15) = .ok 0x13FFC#20 ∧ (0x13FFC#20).extractLsb' 14 6 = 4#6 := by decide
theorem witness_TokensAreTheMaximalRuns : isDelim 0x2C#8 = true ∧ isDelim 0x0D#8 = true ∧
    ascii "R1" ≠ [] ∧ (∀ c ∈ ascii "R1", isDelim c = false) ∧ ascii "R1" ∈ tokens (ascii ",R1 ") := by decide
theorem witness_LookupMatchesTheWholeUpperCasedToken : upper (ascii "aDd") = spelling .ADD ∧
    ∀ m ∈ mnemonics, upper (ascii "ADDX") ≠ spelling m := by decide
theorem witness_MnemonicCaseDoesNotMatter : tokens (ascii "add R1") = [ascii "add", ascii "R1"] ∧
    tokens (ascii "ADD R1") = [ascii "ADD", ascii "R1"] ∧ upper (ascii "add") = upper (ascii "ADD") := by decide
theorem witness_OperandPositionsOfEachClass :
    parseOperands .ADDI [ascii "ADDI", ascii "R7", ascii "R0", ascii "-32"] = .ok (.addi 7 0 (-32)) ∧
    parseOperands .ST [ascii "ST", ascii "5", ascii "R5"] = .error .malformedOperand ∧
    lookup (tokens (ascii "st R1")) = .ok .ST := by decide
theorem witness_OperandPositionsOfEachClass_token :
    [ascii "LD", ascii "R1"][0 + 1]? = some (ascii "R1") ∧
    [ascii "LD", ascii "R1"].length ≤ 1 + 1 := by decide
theorem witness_OperandPositionsOfEachClass_missing :
    [ascii "LD", ascii "R1"].length ≤ (positions .LD).length ∧
    ∀ j kind, (positions .LD)[j]? = some kind → j + 1 < [ascii "LD", ascii "R1"].length →
      ∃ x, readPosition [ascii "LD", ascii "R1"] kind j = .ok x := by
  refine ⟨by decide, fun j kind h hj => ?_⟩
  obtain rfl : j = 0 := by simp only [List.length_cons, List.length_nil] at hj; omega
  cases h
  exact ⟨.reg 1, by decide⟩
theorem witness_RegisterTokensParse : IsRegToken (ascii "R15") 15 :=
  ⟨ascii "15", by decide, ⟨by decide, by decide⟩, by decide⟩
theorem witness_RegisterTokensParse_refuses : ∀ n, ¬IsRegToken (ascii "r1") n := by
  rintro n ⟨ds, h, _⟩
  have h : ascii "r1" = 0x52#8 :: ds := h
  exact absurd (List.cons.inj (show 0x72#8 :: [0x31#8] = 0x52#8 :: ds from by rw [← h]; decide)).1 (by decide)
theorem witness_ImmediateTokensParse : IsImmToken (ascii "-32") (-32) :=
  .inr ⟨ascii "32", by decide, ⟨by decide, by decide⟩, by decide⟩
theorem witness_ImmediateTokensParse_positive : IsImmToken (ascii "007") 7 :=
  .inl ⟨⟨by decide, by decide⟩, by decide⟩
theorem witness_ImmediateTokensParse_refuses : ∀ v, ¬IsImmToken [] v := by
  rintro v (⟨h, _⟩ | ⟨_, h, _⟩)
  · exact h.1 rfl
  · cases h
theorem witness_ExtraTokensAreIgnored : lookup (tokens (ascii "JUMP 0")) = .ok .JUMP ∧
    (positions .JUMP).length < (tokens (ascii "JUMP 0")).length ∧
    tokens (ascii "JUMP 0 x") = tokens (ascii "JUMP 0") ++ [ascii "x"] := by decide
theorem witness_OneErrorIsReportedInThisOrder_lookup :
    ∀ m ∈ mnemonics, lookup (tokens (ascii "MUL")) ≠ .ok m := by decide
theorem witness_OneErrorIsReportedInThisOrder_missing :
    lookup (tokens (ascii "JUMP")) = .ok .JUMP ∧ (positions .JUMP)[0]? = some (.immediate 14) ∧
    PositionFails (tokens (ascii "JUMP")) (.immediate 14) 0 .operandCountMismatch ∧
    (tokens (ascii "JUMP")).length ≤ (positions .JUMP).length :=
  ⟨by decide, by decide, .inl ⟨by decide, rfl⟩, by decide⟩
theorem witness_OneErrorIsReportedInThisOrder_malformed :
    lookup (tokens (ascii "JUMP R1")) = .ok .JUMP ∧ (positions .JUMP)[0]? = some (.immediate 14) ∧
    PositionFails (tokens (ascii "JUMP R1")) (.immediate 14) 0 .malformedOperand := by
  refine ⟨by decide, by decide, .inr ⟨ascii "R1", by decide, ?_, rfl⟩⟩
  have hr : ascii "R1" = [0x52#8, 0x31#8] := by decide
  rw [hr]
  rintro ⟨v, ⟨h, _⟩ | ⟨_, h, _⟩⟩
  · have := h.2 0x52#8 (by simp); revert this; decide
  · cases h
theorem witness_OneErrorIsReportedInThisOrder_range :
    OutOfRange (ascii "8192") (.immediate 14) ∧ OutOfRange (ascii "R16") .register :=
  ⟨⟨8192, .inl ⟨⟨by decide, by decide⟩, by decide⟩, .inr (by decide)⟩,
   ⟨16, ⟨ascii "16", by decide, ⟨by decide, by decide⟩, by decide⟩, by decide⟩⟩
theorem witness_PrintedFormEncodes : (Instr.st 15 511).wf = true := by decide
theorem witness_EmittedLinesBeginWithZeroToFour :
    encodeLine (ascii "BGE R15, R15, -1") = .ok (0x47FFF#20, ascii "47FFF") := by decide
theorem witness_RTypeLines : lookup (tokens (ascii "SUB R15, R0, R15")) = .ok .SUB ∧
    regAt (tokens (ascii "SUB R15, R0, R15")) 1 = .ok 15 ∧ regAt (tokens (ascii "SUB R15, R0, R15")) 2 = .ok 0 ∧
    regAt (tokens (ascii "SUB R15, R0, R15")) 3 = .ok 15 := by decide
theorem witness_RTypeLines_fails : lookup (tokens (ascii "OR R1, R2")) = .ok .OR ∧
    regAt (tokens (ascii "OR R1, R2")) 1 = .ok 1 ∧ regAt (tokens (ascii "OR R1, R2")) 2 = .ok 2 ∧
    regAt (tokens (ascii "OR R1, R2")) 3 = .error .operandCountMismatch ∧
    regAt (tokens (ascii "OR 1")) 1 = .error .malformedOperand ∧
    regAt (tokens (ascii "OR R1")) 2 = .error .operandCountMismatch := by decide
theorem witness_ITypeLines : lookup (tokens (ascii "ADDI R15, R0, -32")) = .ok .ADDI ∧
    regAt (tokens (ascii "ADDI R15, R0, -32")) 1 = .ok 15 ∧ regAt (tokens (ascii "ADDI R15, R0, -32")) 2 = .ok 0 ∧
    immAt (tokens (ascii "ADDI R15, R0, -32")) 3 = .ok (-32) ∧
    immAt (tokens (ascii "ADDI R15, R0, 32")) 3 = .ok 32 ∧
    immAt (tokens (ascii "ADDI R15, R0, R3")) 3 = .error .malformedOperand := by decide
theorem witness_LoadStoreLines : lookup (tokens (ascii "LD R16, 511")) = .ok .LD ∧
    regAt (tokens (ascii "LD R16, 511")) 1 = .ok 16 ∧ immAt (tokens (ascii "LD R16, 511")) 2 = .ok 511 ∧
    immAt (tokens (ascii "LD R1, -513")) 2 = .ok (-513) ∧
    immAt (tokens (ascii "LD R1")) 2 = .error .operandCountMismatch := by decide
theorem witness_JumpLines : lookup (tokens (ascii "JUMP 8191")) = .ok .JUMP ∧
    immAt (tokens (ascii "JUMP 8191")) 1 = .ok 8191 ∧ immAt (tokens (ascii "JUMP -8193")) 1 = .ok (-8193) ∧
    (tokens (ascii "JUMP")).length ≤ 1 ∧
    answer (exec (.jump 8191) State.reset) =
      some { idx := 1, out := [ascii "31FFF"], fault := none, input := [] } := by decide
theorem witness_BranchLines : lookup (tokens (ascii "BGE R15, R0, 31")) = .ok .BGE ∧
    regAt (tokens (ascii "BGE R15, R0, 31")) 1 = .ok 15 ∧ regAt (tokens (ascii "BGE R15, R0, 31")) 2 = .ok 0 ∧
    immAt (tokens (ascii "BGE R15, R0, 31")) 3 = .ok 31 ∧
    immAt (tokens (ascii "BGE R1, R2, loop")) 3 = .error .malformedOperand ∧
    answer (exec (.beq 0 0 31) State.reset) =
      some { idx := 1, out := [ascii "3401F"], fault := none, input := [] } := by decide
/-- The state, and the edge operands, of the completion statements. -/
theorem witness_InstructionsComplete : (fed [ascii "ADD R15, R0, R15"]).fault = none ∧
    answer (exec (.add 15 0 15) (fed [ascii "ADD R15, R0, R15"])) =
      some { idx := 1, out := [ascii "03C3C"], fault := none, input := [] } ∧
    answer (exec (.slli 15 15 (-32)) State.reset) =
      some { idx := 1, out := [ascii "27FE0"], fault := none, input := [] } ∧
    answer (exec (.st 0 (-512)) State.reset) =
      some { idx := 1, out := [ascii "2C200"], fault := none, input := [] } ∧
    answer (exec (.jump (-8192)) State.reset) =
      some { idx := 1, out := [ascii "32000"], fault := none, input := [] } ∧
    answer (exec (.bge 15 0 (-1)) State.reset) =
      some { idx := 1, out := [ascii "47C3F"], fault := none, input := [] } := by decide
theorem witness_OutOfRangeOperandsTakeTheError : State.reset.fault = none ∧
    (Instr.add 0 0 16).wf = false ∧ (Instr.ori 2 1 32).wf = false := by decide
theorem witness_InstructionsChangeOnlyThis :
    answer (exec (.ori 2 1 32) { failed with fault := none }) = some failed := by decide
theorem witness_ResetStartsAnIndependentRun : failed.fault = some ⟨.valueOutOfRange, 1⟩ := rfl
theorem witness_StepRunsTheDecodedInstruction : (fed [ascii "LD R0, -512"]).input = [ascii "LD R0, -512"] ∧
    parseLine (ascii "LD R0, -512") = .ok (.ld 0 (-512)) := by decide
theorem witness_SequencerStep : (fed [ascii "LD R0, 512"]).fault = none ∧
    encodeLine (ascii "LD R0, 512") = .error .valueOutOfRange ∧
    encodeLine (ascii "LD R0, 511") = .ok (0x281FF#20, ascii "281FF") ∧ failed.fault ≠ none := by decide
theorem witness_EveryRunEnds : (fed [ascii "JUMP 0"]).fault = none ∧ (fed [ascii "JUMP 0"]).input ≠ [] := by decide
/-- The invariant holds of a state that is not the reset state: an error has been recorded in it. -/
theorem witness_StepKeepsTheInvariant_failed : failed.Inv :=
  ⟨rfl, by decide, fun _ h => by cases h; exact ⟨rfl, by decide, _, _, rfl, by decide⟩⟩
theorem witness_StepKeepsTheInvariant : ({ failed with fault := none } : State).Inv ∧
    answer (step { failed with fault := none }) = some failed :=
  ⟨⟨rfl, by decide, fun _ h => by cases h⟩, test_step_takes_the_error⟩
theorem witness_LinesAreConsumedInOrder : answer (step (fed [ascii "ADD R1, R2, R3", ascii "JUMP 0"])) =
    some { idx := 1, out := [ascii "0048C"], fault := none, input := [ascii "JUMP 0"] } := by decide
theorem witness_EncodeRunIsTheSequencer : encodeRun [ascii "ADD R1, R2, R3"] = .ok [ascii "0048C"] ∧
    encodeRun [ascii "ADD R1, R2, R3", ascii "MUL R1, R2, R3"] = .error ⟨.unknownInstruction, 1⟩ := by decide
theorem witness_LawsOfARun : encodeRun [ascii "JUMP 0"] = .ok [ascii "30000"] ∧
    encodeRun [ascii "JUMP"] = .error ⟨.operandCountMismatch, 0⟩ := by decide
theorem witness_EncodingHasNoHistory :
    (fed [ascii "JUMP 0"]).fault = none ∧ ({ failed with fault := none } : State).fault = none ∧
    ({ failed with fault := none, input := [ascii "JUMP 0", ascii "JUMP 1"] } : State).input =
      [ascii "JUMP 0", ascii "JUMP 1"] := by decide
theorem witness_PortsOfATransaction : encodeLine (ascii "JUMP 0") = .ok (0x30000#20, ascii "30000") ∧
    encodeLine (ascii "JUMP") = .error .operandCountMismatch := by decide
theorem witness_IOFailureIsNeverRaised : (fed [ascii "JUMP"]).fault = none ∧
    (answer (step (fed [ascii "JUMP"]))).isSome = true := by decide

end Sys2Proof.Tests
end

section
/-! PROOFS. The state after reset, with the Format Table (R11, R19). -/

namespace Sys2Proof

/-- Looking up the opcode of a mnemonic in the Format Table gives the mnemonic back (R55). -/
theorem mnemonicOf_opcode (m : Mnemonic) : mnemonicOf (fmt m).opcode = some m := by
  cases m <;> decide

theorem opcode_injective {m m' : Mnemonic} (h : (fmt m).opcode = (fmt m').opcode) : m = m' := by
  have : some m = some m' := by rw [← mnemonicOf_opcode m, h, mnemonicOf_opcode m']
  exact Option.some.inj this

open Sys2Proof.Machine

/-- Settles O38: the sequencer's fields at reset, and the Format Table, a constant that no state holds;
its opcodes differ because each one leads back to its mnemonic. -/
theorem resetState : Obligations.ResetState := by
  refine ⟨State.reset_idx, State.reset_out, State.reset_fault, ?rows, mem_mnemonics, ?injective⟩
  case rows => decide
  case injective => exact fun _ _ => opcode_injective

end Sys2Proof
end

section
/-! PROOFS. The field datapath and the word decoder are inverse to each other (R46 to R51, R60): the five
formats as equations of fields, then `encodeFields i = .ok w` exactly when `decodeWord w = .ok i`. -/

namespace Sys2Proof

open Sys2Proof.Machine

/-! ### A field and the operand it holds (R76, R80, R82) -/

/-- `RegField` is a bijection from the indices in range to 4-bit fields. -/
theorem regOk_and_field_iff {i : Nat} {x : BitVec 4} :
    regOk i = true ∧ x = BitVec.ofNat 4 i ↔ x.toNat = i := by
  rw [regOk_iff]
  constructor
  · rintro ⟨hi, rfl⟩
    exact toNat_ofNat4 hi
  · rintro rfl
    exact ⟨Nat.le_of_lt_succ x.isLt, by simp⟩

/-- `ImmField(w, ·)` is a bijection from the values in range to `w`-bit fields. -/
theorem immOk_and_field_iff {w : Nat} (hw : 0 < w) {v : Int} {x : BitVec w} :
    immOk w v = true ∧ x = BitVec.ofInt w v ↔ x.toInt = v := by
  rw [immOk_iff]
  constructor
  · rintro ⟨⟨hl, hu⟩, rfl⟩
    exact BitVec.toInt_ofInt_eq_self hw hl (by omega)
  · rintro rfl
    exact ⟨⟨BitVec.le_toInt x, Int.le_sub_one_of_lt BitVec.toInt_lt⟩, BitVec.ofInt_toInt.symm⟩

/-! ### A word and its fields, by format (R47 to R51) -/

theorem eq_catR_iff {w : Word} {o : BitVec 6} {d a b : BitVec 4} {p : BitVec 2} :
    w = o ++ d ++ a ++ b ++ p ↔ w.extractLsb' 14 6 = o ∧ w.extractLsb' 10 4 = d ∧
      w.extractLsb' 6 4 = a ∧ w.extractLsb' 2 4 = b ∧ w.extractLsb' 0 2 = p := by
  simp only [← BitVec.toNat_inj, toNat_append_add, BitVec.extractLsb'_toNat, Nat.shiftRight_eq_div_pow]
  omega

theorem eq_catRRI_iff {w : Word} {o : BitVec 6} {d a : BitVec 4} {v : BitVec 6} :
    w = o ++ d ++ a ++ v ↔ w.extractLsb' 14 6 = o ∧ w.extractLsb' 10 4 = d ∧
      w.extractLsb' 6 4 = a ∧ w.extractLsb' 0 6 = v := by
  simp only [← BitVec.toNat_inj, toNat_append_add, BitVec.extractLsb'_toNat, Nat.shiftRight_eq_div_pow]
  omega

theorem eq_catLS_iff {w : Word} {o : BitVec 6} {r : BitVec 4} {v : BitVec 10} :
    w = o ++ r ++ v ↔ w.extractLsb' 14 6 = o ∧ w.extractLsb' 10 4 = r ∧ w.extractLsb' 0 10 = v := by
  simp only [← BitVec.toNat_inj, toNat_append_add, BitVec.extractLsb'_toNat, Nat.shiftRight_eq_div_pow]
  omega

theorem eq_catJ_iff {w : Word} {o : BitVec 6} {v : BitVec 14} :
    w = o ++ v ↔ w.extractLsb' 14 6 = o ∧ w.extractLsb' 0 14 = v := by
  simp only [← BitVec.toNat_inj, toNat_append_add, BitVec.extractLsb'_toNat, Nat.shiftRight_eq_div_pow]
  omega

/-! ### The words a format produces, read back field by field -/

/-- A checked datapath answers a word exactly when the check holds and the word is its value. -/
theorem checked_ok_iff {c : Bool} {x w : Word} {k : ErrorKind} :
    (if c then Except.ok x else .error k) = .ok w ↔ c = true ∧ w = x := by
  cases c <;> simp [eq_comm]

theorem encodeR_ok_iff {m : Mnemonic} {d a b : Nat} {w : Word} :
    encodeR m d a b = .ok w ↔ w.extractLsb' 14 6 = (fmt m).opcode ∧
      w.extractLsb' 0 2 = 0b00#2 ∧ regBits w 10 = d ∧ regBits w 6 = a ∧ regBits w 2 = b := by
  rw [encodeR_eq, checked_ok_iff, eq_catR_iff]
  simp only [Bool.and_eq_true, regBits, ← regOk_and_field_iff]
  tauto

theorem encodeI_ok_iff {m : Mnemonic} {d a : Nat} {v : Int} {w : Word} :
    encodeI m d a v = .ok w ↔ w.extractLsb' 14 6 = (fmt m).opcode ∧ regBits w 10 = d ∧
      regBits w 6 = a ∧ immBits w 6 = v := by
  rw [encodeI_eq, checked_ok_iff, eq_catRRI_iff]
  simp only [Bool.and_eq_true, regBits, immBits, ← regOk_and_field_iff,
    ← immOk_and_field_iff (Nat.succ_pos 5)]
  tauto

theorem encodeB_eq_encodeI (m : Mnemonic) (a b : Nat) (v : Int) : encodeB m a b v = encodeI m a b v :=
  rfl

theorem encodeLS_ok_iff {m : Mnemonic} {r : Nat} {v : Int} {w : Word} :
    encodeLS m r v = .ok w ↔ w.extractLsb' 14 6 = (fmt m).opcode ∧ regBits w 10 = r ∧
      immBits w 10 = v := by
  rw [encodeLS_eq, checked_ok_iff, eq_catLS_iff]
  simp only [Bool.and_eq_true, regBits, immBits, ← regOk_and_field_iff,
    ← immOk_and_field_iff (Nat.succ_pos 9)]
  tauto

theorem encodeJ_ok_iff {m : Mnemonic} {v : Int} {w : Word} :
    encodeJ m v = .ok w ↔ w.extractLsb' 14 6 = (fmt m).opcode ∧ immBits w 14 = v := by
  rw [encodeJ_eq, checked_ok_iff, eq_catJ_iff]
  simp only [immBits, ← immOk_and_field_iff (Nat.succ_pos 13)]
  tauto

/-! ### The decoder -/

theorem mnemonicOf_eq_some_iff {o : BitVec 6} {m : Mnemonic} :
    mnemonicOf o = some m ↔ o = (fmt m).opcode := by
  constructor
  · intro h
    exact (beq_iff_eq.1 (List.find?_some (p := fun m => (fmt m).opcode == o) h)).symm
  · rintro rfl
    exact mnemonicOf_opcode m

/-- The words a mnemonic's fields can be read from: every one, but in class R only those with padding
`00` (R57). -/
def ReadableAs (m : Mnemonic) (w : Word) : Prop := (fmt m).cls = .R → w.extractLsb' 0 2 = 0b00#2

theorem readR_ok_iff {mk : Nat → Nat → Nat → Instr} {w : Word} {i : Instr} :
    readR mk w = .ok i ↔
      w.extractLsb' 0 2 = 0b00#2 ∧ mk (regBits w 10) (regBits w 6) (regBits w 2) = i := by
  rw [readR]
  split <;> simp_all

theorem readFields_mnemonic {m : Mnemonic} {w : Word} {i : Instr} (h : readFields m w = .ok i) :
    i.mnemonic = m := by
  cases m
  case ADD | OR | NAND | SUB | SLL =>
    obtain ⟨-, rfl⟩ := readR_ok_iff.1 h
    rfl
  all_goals
    cases h
    rfl

theorem exists_readFields_ok_iff {m : Mnemonic} {w : Word} :
    (∃ i, readFields m w = .ok i) ↔ ReadableAs m w := by
  cases m
  case ADD | OR | NAND | SUB | SLL => simp [readFields, readR_ok_iff, ReadableAs, fmt]
  all_goals simp [readFields, readRRI, readLS, readJ, ReadableAs, fmt]

theorem decodeWord_ok_iff {w : Word} {i : Instr} :
    decodeWord w = .ok i ↔
      w.extractLsb' 14 6 = (fmt i.mnemonic).opcode ∧ readFields i.mnemonic w = .ok i := by
  rw [← mnemonicOf_eq_some_iff, decodeWord]
  cases mnemonicOf (w.extractLsb' 14 6) with
  | none => simp
  | some m =>
    constructor
    · intro h
      cases readFields_mnemonic h
      exact ⟨rfl, h⟩
    · rintro ⟨hm, h⟩
      cases hm
      exact h

/-- The two directions of the encoding: a word is produced from an instruction exactly when it decodes
to that instruction. -/
theorem encodeFields_ok_iff_decodeWord {i : Instr} {w : Word} :
    encodeFields i = .ok w ↔ decodeWord w = .ok i := by
  rw [decodeWord_ok_iff]
  cases i
  case add | or | nand | sub | sll =>
    simp [encodeFields, encodeR_ok_iff, Instr.mnemonic, readFields, readR_ok_iff]
  case addi | ori | nandi | subi | slli =>
    simp [encodeFields, encodeI_ok_iff, Instr.mnemonic, readFields, readRRI]
  case ld | st => simp [encodeFields, encodeLS_ok_iff, Instr.mnemonic, readFields, readLS]
  case jump => simp [encodeFields, encodeJ_ok_iff, Instr.mnemonic, readFields, readJ]
  case beq | blt | bgt | ble | bge =>
    simp [encodeFields, encodeB_eq_encodeI, encodeI_ok_iff, Instr.mnemonic, readFields, readRRI]

end Sys2Proof
end

section
/-! PROOFS. The words the encoder produces (R54 to R60). -/

namespace Sys2Proof

open Sys2Proof.Machine

/-- Settles O1: the Format Table is part of what a run starts from. -/
theorem formatTableHoldsTheEighteenRows : Obligations.FormatTableHoldsTheEighteenRows := by
  obtain ⟨-, -, -, table⟩ := resetState
  exact table

/-- Settles O7: both instructions are what the one word decodes to. -/
theorem encodeFieldsIsInjective : Obligations.EncodeFieldsIsInjective := by
  intro i j w hi hj
  rw [encodeFields_ok_iff_decodeWord] at hi hj
  exact Except.ok.inj (hi.symm.trans hj)

/-! ### Which words are produced -/

theorem opcode_toNat_lt (m : Mnemonic) : (fmt m).opcode.toNat < 18 := by
  cases m <;> decide

theorem cls_eq_R_iff (m : Mnemonic) : (fmt m).cls = .R ↔ (fmt m).opcode.toNat ≤ 4 := by
  cases m <;> decide

theorem exists_opcode_eq {o : BitVec 6} (h : o.toNat < 18) : ∃ m, o = (fmt m).opcode := by
  have assigned : ∀ o : BitVec 6, o.toNat < 18 → (mnemonicOf o).isSome = true := by decide
  obtain ⟨m, hm⟩ := Option.isSome_iff_exists.1 (assigned o h)
  exact ⟨m, mnemonicOf_eq_some_iff.1 hm⟩

/-- A word is produced exactly when its opcode is a mnemonic's, with the padding that class demands. -/
theorem produced_iff_exists_mnemonic {w : Word} : (∃ i, encodeFields i = .ok w) ↔
    ∃ m, w.extractLsb' 14 6 = (fmt m).opcode ∧ ReadableAs m w := by
  simp only [encodeFields_ok_iff_decodeWord, decodeWord_ok_iff]
  constructor
  · rintro ⟨i, ho, hr⟩
    exact ⟨i.mnemonic, ho, exists_readFields_ok_iff.1 ⟨i, hr⟩⟩
  · rintro ⟨m, ho, hm⟩
    obtain ⟨i, hr⟩ := exists_readFields_ok_iff.2 hm
    obtain rfl := readFields_mnemonic hr
    exact ⟨i, ho, hr⟩

/-- The opcodes and the padding of the produced words (R56, R57, R59). -/
theorem produced_iff {w : Word} : (∃ i, encodeFields i = .ok w) ↔
    (5 ≤ (w.extractLsb' 14 6).toNat ∧ (w.extractLsb' 14 6).toNat ≤ 17) ∨
    ((w.extractLsb' 14 6).toNat ≤ 4 ∧ w.extractLsb' 0 2 = 0b00#2) := by
  rw [produced_iff_exists_mnemonic]
  constructor
  · rintro ⟨m, ho, hm⟩
    have hlt := opcode_toNat_lt m
    rw [ReadableAs, cls_eq_R_iff, ← ho] at hm
    rw [← ho] at hlt
    by_cases hR : (w.extractLsb' 14 6).toNat ≤ 4
    · exact .inr ⟨hR, hm hR⟩
    · exact .inl (by omega)
  · intro h
    obtain ⟨m, ho⟩ := exists_opcode_eq (o := w.extractLsb' 14 6) (by omega)
    refine ⟨m, ho, fun hR => ?_⟩
    rw [cls_eq_R_iff, ← ho] at hR
    exact (h.resolve_left (by omega)).2

/-- Settles O8: a produced word's opcode is at most 17, and one of at most 4 is an R-type word. -/
theorem noUnassignedOpcodeAndNoOtherPad : Obligations.NoUnassignedOpcodeAndNoOtherPad := by
  intro i w h
  obtain ⟨hlo, hhi⟩ | ⟨hR, hpad⟩ := produced_iff.1 ⟨i, h⟩
  · exact ⟨by omega, fun hR => by omega⟩
  · exact ⟨by omega, fun _ => hpad⟩

/-! ### How many words are produced: 5 * 2^12 of format R and 13 * 2^14 of the others (R59) -/

/-- The `k`-th word with opcode 0 to 4 and padding `00`. -/
def nthRWord (k : Fin (5 * 2 ^ 12)) : Word := BitVec.ofNat 20 (4 * k)

/-- The `k`-th word with opcode 5 to 17. -/
def nthImmWord (k : Fin (13 * 2 ^ 14)) : Word := BitVec.ofNat 20 (5 * 2 ^ 14 + k)

theorem nthRWord_toNat (k : Fin (5 * 2 ^ 12)) : (nthRWord k).toNat = 4 * k := by
  have := k.isLt
  rw [nthRWord, BitVec.toNat_ofNat]
  omega

theorem nthImmWord_toNat (k : Fin (13 * 2 ^ 14)) : (nthImmWord k).toNat = 5 * 2 ^ 14 + k := by
  have := k.isLt
  rw [nthImmWord, BitVec.toNat_ofNat]
  omega

theorem nthRWord_injective : Function.Injective nthRWord := by
  intro j k h
  have := congrArg BitVec.toNat h
  rw [nthRWord_toNat, nthRWord_toNat] at this
  omega

theorem nthImmWord_injective : Function.Injective nthImmWord := by
  intro j k h
  have := congrArg BitVec.toNat h
  rw [nthImmWord_toNat, nthImmWord_toNat] at this
  omega

theorem nthRWord_ne_nthImmWord (j : Fin (5 * 2 ^ 12)) (k : Fin (13 * 2 ^ 14)) :
    nthRWord j ≠ nthImmWord k := by
  intro h
  have := congrArg BitVec.toNat h
  rw [nthRWord_toNat, nthImmWord_toNat] at this
  omega

theorem mem_range_nthRWord {w : Word} : w ∈ Set.range nthRWord ↔
    (w.extractLsb' 14 6).toNat ≤ 4 ∧ w.extractLsb' 0 2 = 0b00#2 := by
  have hw := w.isLt
  rw [Laws.opcode_bits, ← BitVec.toNat_inj, BitVec.extractLsb'_toNat, Nat.shiftRight_zero]
  simp only [Set.mem_range, ← BitVec.toNat_inj, nthRWord_toNat, BitVec.toNat_ofNat]
  constructor
  · rintro ⟨k, hk⟩
    omega
  · intro h
    exact ⟨⟨w.toNat / 4, by omega⟩, by dsimp only; omega⟩

theorem mem_range_nthImmWord {w : Word} : w ∈ Set.range nthImmWord ↔
    5 ≤ (w.extractLsb' 14 6).toNat ∧ (w.extractLsb' 14 6).toNat ≤ 17 := by
  rw [Laws.opcode_bits]
  simp only [Set.mem_range, ← BitVec.toNat_inj, nthImmWord_toNat]
  constructor
  · rintro ⟨k, hk⟩
    omega
  · intro h
    exact ⟨⟨w.toNat - 5 * 2 ^ 14, by omega⟩, by dsimp only; omega⟩

/-- The two numberings together run through the produced words. -/
theorem range_nthWord :
    Set.range (Sum.elim nthRWord nthImmWord) = {w | ∃ i, encodeFields i = .ok w} := by
  ext w
  rw [Set.Sum.elim_range, Set.mem_union, mem_range_nthRWord, mem_range_nthImmWord, Set.mem_ofPred_eq,
    produced_iff, or_comm]

theorem card_produced : Nat.card {w : Word // ∃ i, encodeFields i = .ok w} = 233472 := by
  calc Nat.card {w : Word // ∃ i, encodeFields i = .ok w}
      = Nat.card (Set.range (Sum.elim nthRWord nthImmWord)) := by rw [range_nthWord]; rfl
    _ = Nat.card (Fin (5 * 2 ^ 12) ⊕ Fin (13 * 2 ^ 14)) := Nat.card_range_of_injective
        (nthRWord_injective.sumElim nthImmWord_injective nthRWord_ne_nthImmWord)
    _ = 233472 := by simp

/-- Settles O9: the exact set, then its size. -/
theorem producedWordsAreExactlyThese : Obligations.ProducedWordsAreExactlyThese :=
  ⟨fun _ => produced_iff, card_produced⟩

end Sys2Proof
end

section
/-! PROOFS. The leaf encoders (R76, R77, R80, R82): each field is that of exactly one value in
range. -/

namespace Sys2Proof

open Sys2Proof.Machine

theorem regField_ok_iff {i : Nat} {f : BitVec 4} : regField i = .ok f ↔ f.toNat = i := by
  rw [regField_eq, ← regOk_and_field_iff]
  split <;> simp_all [eq_comm (a := f)]

theorem immField_ok_iff {w : Nat} (hw : 0 < w) {v : Int} {f : BitVec w} :
    immField w v = .ok f ↔ f.toInt = v := by
  rw [immField_eq, ← immOk_and_field_iff hw]
  split <;> simp_all [eq_comm (a := f)]

/-- Settles O20: the field of an index is the vector with that value. -/
theorem registerFieldIsTheBinaryIndex : Obligations.RegisterFieldIsTheBinaryIndex := by
  refine ⟨fun i hi => ⟨_, regField_ok hi, toNat_ofNat4 hi⟩, fun i => regField_error, fun f => ?_⟩
  exact ⟨f.toNat, Nat.le_of_lt_succ f.isLt, regField_ok_iff.2 rfl,
    fun j hj => (regField_ok_iff.1 hj).symm⟩

/-- The value of a field without its sign: `2^w` more when the signed value is negative (R80). -/
theorem toNat_eq_toInt_add {w : Nat} (f : BitVec w) :
    (f.toNat : Int) = if f.toInt < 0 then (2 : Int) ^ w + f.toInt else f.toInt := by
  have hlt : (f.toNat : Int) < 2 ^ w := by exact_mod_cast f.isLt
  rw [BitVec.toInt_eq_toNat_cond]
  push_cast
  split <;> split <;> omega

theorem toNat_eq_toInt_emod {w : Nat} (f : BitVec w) : (f.toNat : Int) = f.toInt % (2 : Int) ^ w := by
  rw [BitVec.toInt_eq_toNat_bmod]
  exact_mod_cast
    (Int.bmod_emod.trans (Int.emod_eq_of_lt (Int.natCast_nonneg _) (Int.ofNat_lt.2 f.isLt))).symm

/-- Settles O21: at every width but 0, the field of a value in range is the vector with that signed
value. -/
theorem immediateFieldIsTwosComplement : Obligations.ImmediateFieldIsTwosComplement := by
  intro w hw
  have widths_pos : ∀ w ∈ [6, 10, 14], 0 < w := by decide
  have hpos := widths_pos w hw
  refine ⟨fun v hl hu => ?accepted, fun v => immField_error, fun f => ?bijective⟩
  case accepted =>
    obtain ⟨f, hf⟩ : ∃ f, immField w v = .ok f := ⟨_, immField_ok hl hu⟩
    obtain rfl := (immField_ok_iff hpos).1 hf
    exact ⟨f, hf, rfl, toNat_eq_toInt_emod f, toNat_eq_toInt_add f, by simp [BitVec.msb_eq_toInt],
      fun n hn => BitVec.toInt_signExtend_of_le hn⟩
  case bijective =>
    exact ⟨f.toInt, BitVec.le_toInt f, Int.le_sub_one_of_lt BitVec.toInt_lt,
      (immField_ok_iff hpos).2 rfl, fun v hv => ((immField_ok_iff hpos).1 hv).symm⟩

end Sys2Proof
end

section
/-! PROOFS. Tokens, lookup and operand tokens (R70 to R78). -/

namespace Sys2Proof

theorem isDelim_iff (c : Byte) : isDelim c = true ↔ c ∈ Config.delimiters :=
  List.contains_iff_mem

/-- Settles O10: the loop of `Tokens`, one equation for each way a line can begin. -/
theorem tokensAreTheMaximalRuns : Obligations.TokensAreTheMaximalRuns :=
  ⟨isDelim_iff, tokens_nil, fun _ l hc => tokens_delim hc l, fun _ => tokens_single,
    fun _ _ l h0 ht hc => tokens_run h0 ht hc l, fun _ _ => tokens_mem⟩

/-- Settles O11: different mnemonics have different spellings, and `Lookup` fails in one way. -/
theorem lookupMatchesTheWholeUpperCasedToken : Obligations.LookupMatchesTheWholeUpperCasedToken := by
  refine ⟨rfl, fun t ts m => lookup_ok_iff, fun t ts h => ?_⟩
  cases hl : lookup (t :: ts) with
  | ok m => exact absurd (lookup_ok_iff.1 hl) (h m)
  | error k => rw [lookup_error hl]

/-! ### Operand tokens -/

theorem isDecimal_iff {ds : Line} : IsDecimal ds ↔ ds ≠ [] ∧ ∀ c ∈ ds, isDigit c = true := by
  simp only [IsDecimal, isDigit_iff]

theorem parseMagnitude_ok_iff {t : Line} {n : Nat} :
    parseMagnitude t = .ok n ↔ IsDecimal t ∧ n = decimalValue t := by
  rw [isDecimal_iff]
  cases t with
  | nil => simp [parseMagnitude]
  | cons d ds =>
    rw [parseMagnitude]
    obtain ⟨hd, hp⟩ | ⟨⟨c, hc, hc'⟩, hp⟩ := parseDigits_cases (d :: ds)
    · rw [hp, Except.ok.injEq]
      exact ⟨fun h => ⟨⟨by simp, hd⟩, h.symm⟩, fun ⟨_, h⟩ => h.symm⟩
    · rw [hp]
      refine ⟨nofun, fun ⟨⟨_, allDigits⟩, _⟩ => ?_⟩
      simp [allDigits c hc] at hc'

/-- `ParseReg` past its first character is the digit loop of both parsers. -/
theorem parseReg_cons (c : Byte) (ds : Line) : parseReg (c :: ds) =
    if c = Config.registerMarker then parseMagnitude ds else .error .malformedOperand := by
  cases ds with
  | nil => simp [parseReg, parseMagnitude]
  | cons d ds => rfl

theorem parseReg_ok_iff {t : Line} {n : Nat} : parseReg t = .ok n ↔ IsRegToken t n := by
  cases t with
  | nil => simp [parseReg, IsRegToken]
  | cons c ds =>
    rw [parseReg_cons]
    split <;> simp_all [IsRegToken, parseMagnitude_ok_iff]

theorem not_isDecimal_minus (ds : Line) : ¬IsDecimal (Config.minusSign :: ds) := fun h =>
  absurd ((isDecimal_iff.1 h).2 Config.minusSign (by simp)) (by decide)

/-- `ParseImm` by its first character, with the value as an integer. -/
theorem parseImm_cons (c : Byte) (cs : Line) : parseImm (c :: cs) =
    if c = Config.minusSign then (parseMagnitude cs).map fun n : Nat => -(n : Int)
    else (parseMagnitude (c :: cs)).map fun n : Nat => (n : Int) := by
  rw [parseImm]
  cases parseMagnitude cs <;> cases parseMagnitude (c :: cs) <;> rfl

theorem map_ok_iff {ε α β : Type} {r : Except ε α} {f : α → β} {y : β} :
    r.map f = .ok y ↔ ∃ x, r = .ok x ∧ f x = y := by
  cases r <;> simp [Except.map]

theorem parseImm_ok_iff {t : Line} {v : Int} : parseImm t = .ok v ↔ IsImmToken t v := by
  cases t with
  | nil => simp [parseImm, IsImmToken, IsDecimal]
  | cons c cs =>
    rw [parseImm_cons]
    split
    case isTrue hc =>
      subst hc
      simp [map_ok_iff, parseMagnitude_ok_iff, IsImmToken, not_isDecimal_minus, eq_comm (b := v),
        and_assoc]
    case isFalse hc =>
      simp [map_ok_iff, parseMagnitude_ok_iff, IsImmToken, hc, eq_comm (b := v), and_assoc]

/-- Settles O14: `ParseReg` fails in one way. -/
theorem registerTokensParse : Obligations.RegisterTokensParse := by
  refine fun t => ⟨fun n => parseReg_ok_iff, fun h => ?_⟩
  cases hp : parseReg t with
  | ok n => exact absurd (parseReg_ok_iff.1 hp) (h n)
  | error k => rw [parseReg_error hp]

/-- Settles O15: `ParseImm` fails in one way. -/
theorem immediateTokensParse : Obligations.ImmediateTokensParse := by
  refine fun t => ⟨fun v => parseImm_ok_iff, fun h => ?_⟩
  cases hp : parseImm t with
  | ok v => exact absurd (parseImm_ok_iff.1 hp) (h v)
  | error k => rw [parseImm_error hp]

end Sys2Proof
end

section
/-! PROOFS. The operand positions of a line, read left to right (R74, R83, R84, R155): `parseOperands`
answers what the readings of its mnemonic's positions, taken in order, give. -/

namespace Sys2Proof

/-! ### Readings taken in order: all values, or the first error -/

theorem mapM_id_ok_iff {ε α : Type} {rs : List (Except ε α)} {xs : List α} :
    rs.mapM id = .ok xs ↔ rs = xs.map .ok := by
  induction rs generalizing xs with
  | nil => cases xs <;> simp [pure, Except.pure]
  | cons r rs ih =>
    rw [List.mapM_cons]
    cases r with
    | error e => cases xs <;> simp [bind, Except.bind]
    | ok x =>
      cases h : rs.mapM id <;> cases xs <;> simp_all [bind, Except.bind, pure, Except.pure]

theorem mapM_id_error_iff {ε α : Type} {rs : List (Except ε α)} {e : ε} :
    rs.mapM id = .error e ↔
      ∃ j : Nat, rs[j]? = some (Except.error e) ∧ ∀ j' < j, ∃ x, rs[j']? = some (Except.ok x) := by
  induction rs with
  | nil => simp [pure, Except.pure]
  | cons r rs ih =>
    rw [List.mapM_cons, ← Nat.or_exists_add_one]
    simp only [Nat.forall_lt_succ_left, List.getElem?_cons_zero, List.getElem?_cons_succ]
    cases r with
    | error e' => simp [bind, Except.bind]
    | ok x =>
      simp only [id, bind, Except.bind, Option.some.injEq, reduceCtorEq, false_and, false_or,
        Except.ok.injEq, exists_eq', true_and, ← ih]
      cases rs.mapM id <;> simp [pure, Except.pure]

/-! ### The positions of a line -/

/-- What the operand positions of the given kinds read, left to right. -/
def readPositions (toks : List Line) (kinds : List OperandKind) :
    List (Except ErrorKind OperandValue) :=
  kinds.mapIdx fun j kind => readPosition toks kind j

@[simp] theorem getElem?_readPositions (toks : List Line) (kinds : List OperandKind) (j : Nat) :
    (readPositions toks kinds)[j]? = kinds[j]?.map fun kind => readPosition toks kind j :=
  List.getElem?_mapIdx

theorem parseR_operands {mk : Nat → Nat → Nat → Instr} (toks : List Line)
    (h : ∀ d a b, (mk d a b).operands = [.reg d, .reg a, .reg b]) :
    (parseR mk toks).map Instr.operands =
      (readPositions toks [.register, .register, .register]).mapM id := by
  simp only [parseR, readPositions, readPosition, List.mapIdx_cons, List.mapIdx_nil]
  cases regAt toks 1 <;> cases regAt toks 2 <;> cases regAt toks 3 <;>
    simp [bind, Except.bind, pure, Except.pure, Except.map, h]

theorem parseRRI_operands {mk : Nat → Nat → Int → Instr} (toks : List Line)
    (h : ∀ d a v, (mk d a v).operands = [.reg d, .reg a, .imm v]) :
    (parseRRI mk toks).map Instr.operands =
      (readPositions toks [.register, .register, .immediate 6]).mapM id := by
  simp only [parseRRI, readPositions, readPosition, List.mapIdx_cons, List.mapIdx_nil]
  cases regAt toks 1 <;> cases regAt toks 2 <;> cases immAt toks 3 <;>
    simp [bind, Except.bind, pure, Except.pure, Except.map, h]

theorem parseLS_operands {mk : Nat → Int → Instr} (toks : List Line)
    (h : ∀ r v, (mk r v).operands = [.reg r, .imm v]) :
    (parseLS mk toks).map Instr.operands =
      (readPositions toks [.register, .immediate 10]).mapM id := by
  simp only [parseLS, readPositions, readPosition, List.mapIdx_cons, List.mapIdx_nil]
  cases regAt toks 1 <;> cases immAt toks 2 <;>
    simp [bind, Except.bind, pure, Except.pure, Except.map, h]

theorem parseJ_operands {mk : Int → Instr} (toks : List Line)
    (h : ∀ v, (mk v).operands = [.imm v]) :
    (parseJ mk toks).map Instr.operands = (readPositions toks [.immediate 14]).mapM id := by
  simp only [parseJ, readPositions, readPosition, List.mapIdx_cons, List.mapIdx_nil]
  cases immAt toks 1 <;> simp [bind, Except.bind, pure, Except.pure, Except.map, h]

theorem parseOperands_operands (m : Mnemonic) (toks : List Line) :
    (parseOperands m toks).map Instr.operands = (readPositions toks (positions m)).mapM id := by
  cases m
  case ADD | OR | NAND | SUB | SLL => exact parseR_operands toks fun _ _ _ => rfl
  case LD | ST => exact parseLS_operands toks fun _ _ => rfl
  case JUMP => exact parseJ_operands toks fun _ => rfl
  all_goals exact parseRRI_operands toks fun _ _ _ => rfl

theorem parseOperands_mnemonic {m : Mnemonic} {toks : List Line} {i : Instr}
    (h : parseOperands m toks = .ok i) : i.mnemonic = m := by
  cases m
  case ADD | OR | NAND | SUB | SLL =>
    obtain ⟨d, a, b, -, -, -, rfl⟩ := parseR_ok_iff.1 h
    rfl
  case LD | ST =>
    obtain ⟨r, v, -, -, rfl⟩ := parseLS_ok_iff.1 h
    rfl
  case JUMP =>
    obtain ⟨v, -, rfl⟩ := parseJ_ok_iff.1 h
    rfl
  all_goals
    obtain ⟨d, a, v, -, -, -, rfl⟩ := parseRRI_ok_iff.1 h
    rfl

/-- An instruction is its mnemonic and its operands. -/
theorem Instr.eq_of_operands {i i' : Instr} (hm : i.mnemonic = i'.mnemonic)
    (ho : i.operands = i'.operands) : i = i' := by
  cases i
  all_goals
    cases i' <;> cases hm
    cases ho
    rfl

theorem parseOperands_ok_iff {m : Mnemonic} {toks : List Line} {i : Instr} :
    parseOperands m toks = .ok i ↔
      i.mnemonic = m ∧ readPositions toks (positions m) = i.operands.map .ok := by
  rw [← mapM_id_ok_iff, ← parseOperands_operands, map_ok_iff]
  constructor
  · exact fun h => ⟨parseOperands_mnemonic h, i, h, rfl⟩
  · rintro ⟨rfl, i', h, ho⟩
    rwa [Instr.eq_of_operands (parseOperands_mnemonic h) ho] at h

theorem parseOperands_error_iff {m : Mnemonic} {toks : List Line} {e : ErrorKind} :
    parseOperands m toks = .error e ↔ (readPositions toks (positions m)).mapM id = .error e := by
  rw [← parseOperands_operands]
  cases parseOperands m toks <;> simp [Except.map]

/-- A line is read through its positions' readings alone. -/
theorem parseOperands_congr {m : Mnemonic} {toks toks' : List Line}
    (h : readPositions toks' (positions m) = readPositions toks (positions m)) :
    parseOperands m toks' = parseOperands m toks := by
  cases hp : parseOperands m toks with
  | ok i => rwa [parseOperands_ok_iff, h, ← parseOperands_ok_iff]
  | error e => rwa [parseOperands_error_iff, h, ← parseOperands_error_iff]

theorem parseLine_of_lookup {l : Line} {m : Mnemonic} (h : lookup (tokens l) = .ok m) :
    parseLine l = parseOperands m (tokens l) := by
  rw [parseLine, h]
  rfl

/-! ### The token of a position -/

theorem readPosition_missing {toks : List Line} {j : Nat} (h : toks.length ≤ j + 1)
    (kind : OperandKind) : readPosition toks kind j = .error .operandCountMismatch := by
  have absent : toks[j + 1]? = none := List.getElem?_eq_none h
  cases kind <;> simp [readPosition, regAt, immAt, absent, Except.map]

theorem readPosition_append {toks : List Line} {j : Nat} (h : j + 1 < toks.length)
    (extra : List Line) (kind : OperandKind) :
    readPosition (toks ++ extra) kind j = readPosition toks kind j := by
  cases kind <;> simp [readPosition, regAt, immAt, List.getElem?_append_left h]

theorem readPositions_append {toks : List Line} {kinds : List OperandKind}
    (h : kinds.length < toks.length) (extra : List Line) :
    readPositions (toks ++ extra) kinds = readPositions toks kinds := by
  refine List.mapIdx_eq_mapIdx_iff.2 fun j hj => ?_
  exact readPosition_append (by omega) extra _

/-- Settles O16: every required position has its token in front of the extra ones. -/
theorem extraTokensAreIgnored : Obligations.ExtraTokensAreIgnored := by
  intro l l' m extra hl hcount hl'
  have same : parseLine l' = parseLine l := by
    rw [parseLine_of_lookup hl, parseLine_of_lookup (hl' ▸ lookup_append hl extra), hl',
      parseOperands_congr (readPositions_append hcount extra)]
  rw [Machine.encodeLine, Machine.encodeLine, same]

/-! ### The readings position by position -/

theorem readPositions_eq_map_ok_iff {toks : List Line} {kinds : List OperandKind}
    {xs : List OperandValue} : readPositions toks kinds = xs.map .ok ↔
      xs.length = kinds.length ∧ ∀ j kind, kinds[j]? = some kind →
        ∃ x, readPosition toks kind j = .ok x ∧ xs[j]? = some x := by
  constructor
  · intro h
    refine ⟨by simpa [readPositions] using (congrArg List.length h).symm, fun j kind hk => ?_⟩
    have reading : some (readPosition toks kind j) = xs[j]?.map .ok := by
      simpa [hk] using congrArg (fun rs => rs[j]?) h
    obtain ⟨x, hx, hr⟩ := Option.map_eq_some_iff.1 reading.symm
    exact ⟨x, hr.symm, hx⟩
  · rintro ⟨hlen, h⟩
    refine List.ext_getElem? fun j => ?_
    rw [getElem?_readPositions, List.getElem?_map]
    cases hk : kinds[j]? with
    | none =>
      have absent : xs[j]? = none := by
        rwa [List.getElem?_eq_none_iff, hlen, ← List.getElem?_eq_none_iff]
      simp [absent]
    | some kind =>
      obtain ⟨x, hr, hx⟩ := h j kind hk
      simp [hr, hx]

theorem readPositions_error_iff {toks : List Line} {kinds : List OperandKind} {e : ErrorKind} :
    (readPositions toks kinds).mapM id = .error e ↔
      ∃ j kind, kinds[j]? = some kind ∧ readPosition toks kind j = .error e ∧
        ∀ j' kind', j' < j → kinds[j']? = some kind' → ∃ x, readPosition toks kind' j' = .ok x := by
  simp only [mapM_id_error_iff, getElem?_readPositions, Option.map_eq_some_iff]
  constructor
  · rintro ⟨j, ⟨kind, hk, he⟩, before⟩
    refine ⟨j, kind, hk, he, fun j' kind' hj hk' => ?_⟩
    obtain ⟨x, kind'', hk'', hr⟩ := before j' hj
    obtain rfl := Option.some.inj (hk'.symm.trans hk'')
    exact ⟨x, hr⟩
  · rintro ⟨j, kind, hk, he, before⟩
    refine ⟨j, ⟨kind, hk, he⟩, fun j' hj => ?_⟩
    have hlt : j' < kinds.length := hj.trans (List.getElem?_eq_some_iff.1 hk).1
    have hk' := List.getElem?_eq_getElem hlt
    obtain ⟨x, hr⟩ := before j' _ hj hk'
    exact ⟨x, _, hk', hr⟩

theorem positions_length_pos (m : Mnemonic) : 0 < (positions m).length := by
  cases m <;> decide

/-- R83: the first position without a token is the leftmost failing one. -/
theorem parseOperands_missing {m : Mnemonic} {toks : List Line}
    (hlen : toks.length ≤ (positions m).length)
    (h : ∀ j kind, (positions m)[j]? = some kind → j + 1 < toks.length →
      ∃ x, readPosition toks kind j = .ok x) :
    parseOperands m toks = .error .operandCountMismatch := by
  have hpos := positions_length_pos m
  rw [parseOperands_error_iff, readPositions_error_iff]
  refine ⟨toks.length - 1, _, List.getElem?_eq_getElem (by omega),
    readPosition_missing (by omega) _, fun j' kind' hj hk' => h j' kind' hk' (by omega)⟩

/-- Settles O13: the positions are read as `parseOperands_ok_iff` and `parseOperands_error_iff` say. -/
theorem operandPositionsOfEachClass : Obligations.OperandPositionsOfEachClass := by
  refine ⟨rfl, rfl, rfl, rfl, rfl, fun l m => parseLine_of_lookup, ?ok, ?error, ?token,
    fun toks kind j h => readPosition_missing h kind, fun m toks => parseOperands_missing,
    by decide, by decide⟩
  case ok =>
    intro m toks i
    rw [parseOperands_ok_iff, readPositions_eq_map_ok_iff]
  case error =>
    intro m toks e
    rw [parseOperands_error_iff, readPositions_error_iff]
  case token =>
    intro toks j t ht
    simp [readPosition, regAt, immAt, ht]

end Sys2Proof
end

section
/-! PROOFS. Lines of class R (R100 to R105): the three register positions read left to right, then the
field datapath of format R. -/

namespace Sys2Proof

open Sys2Proof.Machine

/-- A class R mnemonic's constructor is what its operands are read into and what format R encodes. -/
theorem exists_parseR_encodeR {m : Mnemonic} (hm : (fmt m).cls = .R) :
    ∃ mk, parseOperands m = parseR mk ∧ ∀ d a b, encodeFields (mk d a b) = encodeR m d a b := by
  cases m
  case ADD => exact ⟨.add, rfl, fun _ _ _ => rfl⟩
  case OR => exact ⟨.or, rfl, fun _ _ _ => rfl⟩
  case NAND => exact ⟨.nand, rfl, fun _ _ _ => rfl⟩
  case SUB => exact ⟨.sub, rfl, fun _ _ _ => rfl⟩
  case SLL => exact ⟨.sll, rfl, fun _ _ _ => rfl⟩
  all_goals exact absurd hm (by decide)

/-- Everything a line of class R does (R100). -/
theorem encodeLine_of_classR {m : Mnemonic} {l : Line} (hm : (fmt m).cls = .R)
    (hl : lookup (tokens l) = .ok m) :
    encodeLine l = (do
      let d ← regAt (tokens l) 1
      let a ← regAt (tokens l) 2
      let b ← regAt (tokens l) 3
      (encodeR m d a b).map fun w => (w, hex w)) := by
  obtain ⟨mk, hparse, hencode⟩ := exists_parseR_encodeR hm
  simp only [← hencode]
  rw [encodeLine, parseLine_of_lookup hl, hparse, parseR]
  cases regAt (tokens l) 1 <;> cases regAt (tokens l) 2 <;> cases regAt (tokens l) 3 <;> rfl

theorem encodeR_ok (m : Mnemonic) {d a b : Nat} (hd : d ≤ 15) (ha : a ≤ 15) (hb : b ≤ 15) :
    encodeR m d a b =
      .ok ((fmt m).opcode ++ BitVec.ofNat 4 d ++ BitVec.ofNat 4 a ++ BitVec.ofNat 4 b ++ 0b00#2) := by
  rw [encodeR_eq, regOk_iff.2 hd, regOk_iff.2 ha, regOk_iff.2 hb]
  rfl

theorem encodeR_error (m : Mnemonic) {d a b : Nat} (h : 16 ≤ d ∨ 16 ≤ a ∨ 16 ≤ b) :
    encodeR m d a b = .error .valueOutOfRange := by
  rw [encodeR_eq, if_neg]
  simp only [Bool.and_eq_true, regOk_iff]
  omega

/-- The mnemonics of class R, with their opcodes. -/
theorem rTypeRow_fmt : ∀ p ∈ [(Mnemonic.ADD, 0b000000#6), (.OR, 0b000001#6), (.NAND, 0b000010#6),
    (.SUB, 0b000011#6), (.SLL, 0b000100#6)], fmt p.1 = ⟨p.2, .R⟩ := by
  decide

/-- Settles O25: each clause is the class R equation, followed to the reading that fails or through all
three to format R. -/
theorem rTypeLines : Obligations.RTypeLines := by
  refine ⟨?lines, by decide, by decide, by decide, by decide, by decide, by decide⟩
  case lines =>
    rintro ⟨m, o⟩ hp l hl
    have hfmt : fmt m = ⟨o, .R⟩ := rTypeRow_fmt _ hp
    obtain rfl : (fmt m).opcode = o := by rw [hfmt]
    have line := encodeLine_of_classR (by rw [hfmt]) hl
    refine ⟨?first, ?second, ?third, ?word⟩
    case first =>
      intro k h1
      rw [line, h1]
      rfl
    case second =>
      intro rd k h1 h2
      rw [line, h1, h2]
      rfl
    case third =>
      intro rd rs1 k h1 h2 h3
      rw [line, h1, h2, h3]
      rfl
    case word =>
      intro rd rs1 rs2 h1 h2 h3
      have encoded : encodeLine l = (encodeR m rd rs1 rs2).map fun w => (w, hex w) := by
        rw [line, h1, h2, h3]
        rfl
      rw [encoded]
      constructor
      · rintro ⟨hd, ha, hb⟩
        refine ⟨_, ?_, rfl, catR_toNat _ hd ha hb⟩
        rw [encodeR_ok m hd ha hb]
        rfl
      · intro h
        rw [encodeR_error m h]
        rfl

end Sys2Proof
end

section
/-! PROOFS. Lines of class I (R110 to R115): two register positions and an immediate position read left
to right, then the field datapath of format I. The lemmas are about every mnemonic with these positions,
so that they hold of class B too, whose datapath is the same. -/

namespace Sys2Proof

open Sys2Proof.Machine

/-- A mnemonic with two registers and a 6-bit immediate has a constructor that its operands are read into
and that format I encodes. -/
theorem exists_parseRRI_encodeI {m : Mnemonic}
    (hm : positions m = [.register, .register, .immediate 6]) :
    ∃ mk, parseOperands m = parseRRI mk ∧ ∀ d a v, encodeFields (mk d a v) = encodeI m d a v := by
  cases m
  case ADDI => exact ⟨.addi, rfl, fun _ _ _ => rfl⟩
  case ORI => exact ⟨.ori, rfl, fun _ _ _ => rfl⟩
  case NANDI => exact ⟨.nandi, rfl, fun _ _ _ => rfl⟩
  case SUBI => exact ⟨.subi, rfl, fun _ _ _ => rfl⟩
  case SLLI => exact ⟨.slli, rfl, fun _ _ _ => rfl⟩
  case BEQ => exact ⟨.beq, rfl, encodeB_eq_encodeI .BEQ⟩
  case BLT => exact ⟨.blt, rfl, encodeB_eq_encodeI .BLT⟩
  case BGT => exact ⟨.bgt, rfl, encodeB_eq_encodeI .BGT⟩
  case BLE => exact ⟨.ble, rfl, encodeB_eq_encodeI .BLE⟩
  case BGE => exact ⟨.bge, rfl, encodeB_eq_encodeI .BGE⟩
  all_goals exact absurd hm (by decide)

/-- Everything a line with two registers and a 6-bit immediate does (R110, R135). -/
theorem encodeLine_of_positionsRRI {m : Mnemonic} {l : Line}
    (hm : positions m = [.register, .register, .immediate 6]) (hl : lookup (tokens l) = .ok m) :
    encodeLine l = (do
      let d ← regAt (tokens l) 1
      let a ← regAt (tokens l) 2
      let v ← immAt (tokens l) 3
      (encodeI m d a v).map fun w => (w, hex w)) := by
  obtain ⟨mk, hparse, hencode⟩ := exists_parseRRI_encodeI hm
  simp only [← hencode]
  rw [encodeLine, parseLine_of_lookup hl, hparse, parseRRI]
  cases regAt (tokens l) 1 <;> cases regAt (tokens l) 2 <;> cases immAt (tokens l) 3 <;> rfl

theorem immOk6_iff {v : Int} : immOk 6 v = true ↔ -32 ≤ v ∧ v ≤ 31 :=
  immOk_iff

theorem encodeI_ok (m : Mnemonic) {d a : Nat} {v : Int} (hd : d ≤ 15) (ha : a ≤ 15) (hl : -32 ≤ v)
    (hu : v ≤ 31) :
    encodeI m d a v =
      .ok ((fmt m).opcode ++ BitVec.ofNat 4 d ++ BitVec.ofNat 4 a ++ BitVec.ofInt 6 v) := by
  rw [encodeI_eq, regOk_iff.2 hd, regOk_iff.2 ha, immOk6_iff.2 ⟨hl, hu⟩]
  rfl

theorem encodeI_error (m : Mnemonic) {d a : Nat} {v : Int}
    (h : 16 ≤ d ∨ 16 ≤ a ∨ v < -32 ∨ 31 < v) : encodeI m d a v = .error .valueOutOfRange := by
  rw [encodeI_eq, if_neg]
  simp only [Bool.and_eq_true, regOk_iff, immOk6_iff]
  omega

/-- The value of a format I word as the rules write it, over the integers. -/
theorem catRRI_toNat_cast (o : BitVec 6) {d a : Nat} (hd : d ≤ 15) (ha : a ≤ 15) (v : Int) :
    ((o ++ BitVec.ofNat 4 d ++ BitVec.ofNat 4 a ++ BitVec.ofInt 6 v : Word).toNat : Int) =
      o.toNat * 16384 + d * 1024 + a * 64 + v % 64 := by
  rw [catRRI_toNat o hd ha v]
  push_cast
  rw [Int.toNat_of_nonneg (Int.emod_nonneg v (by decide))]

/-- The mnemonics of class I, with their opcodes. -/
theorem iTypeRow_fmt : ∀ p ∈ [(Mnemonic.ADDI, 0b000101#6), (.ORI, 0b000110#6), (.NANDI, 0b000111#6),
    (.SUBI, 0b001000#6), (.SLLI, 0b001001#6)], fmt p.1 = ⟨p.2, .I⟩ := by
  decide

/-- Settles O26: each clause is the equation of such a line, followed to the reading that fails or through
all three to format I. -/
theorem iTypeLines : Obligations.ITypeLines := by
  refine ⟨?lines, by decide, by decide, by decide, by decide, by decide, by decide⟩
  case lines =>
    rintro ⟨m, o⟩ hp l hl
    have hfmt : fmt m = ⟨o, .I⟩ := iTypeRow_fmt _ hp
    obtain rfl : (fmt m).opcode = o := by rw [hfmt]
    have line := encodeLine_of_positionsRRI (by rw [positions, hfmt]; rfl) hl
    refine ⟨?first, ?second, ?third, ?word⟩
    case first =>
      intro k h1
      rw [line, h1]
      rfl
    case second =>
      intro rd k h1 h2
      rw [line, h1, h2]
      rfl
    case third =>
      intro rd rs1 k h1 h2 h3
      rw [line, h1, h2, h3]
      rfl
    case word =>
      intro rd rs1 imm h1 h2 h3
      have encoded : encodeLine l = (encodeI m rd rs1 imm).map fun w => (w, hex w) := by
        rw [line, h1, h2, h3]
        rfl
      rw [encoded]
      constructor
      · rintro ⟨hd, ha, hl, hu⟩
        refine ⟨_, ?_, rfl, catRRI_toNat_cast _ hd ha imm⟩
        rw [encodeI_ok m hd ha hl hu]
        rfl
      · intro h
        rw [encodeI_error m h]
        rfl

end Sys2Proof
end

section
/-! PROOFS. Lines of class LS (R120 to R122): a register position and an immediate position read left to
right, then the field datapath of format LS. -/

namespace Sys2Proof

open Sys2Proof.Machine

/-- A class LS mnemonic's constructor is what its operands are read into and what format LS encodes. -/
theorem exists_parseLS_encodeLS {m : Mnemonic} (hm : (fmt m).cls = .LS) :
    ∃ mk, parseOperands m = parseLS mk ∧ ∀ r v, encodeFields (mk r v) = encodeLS m r v := by
  cases m
  case LD => exact ⟨.ld, rfl, fun _ _ => rfl⟩
  case ST => exact ⟨.st, rfl, fun _ _ => rfl⟩
  all_goals exact absurd hm (by decide)

/-- Everything a line of class LS does (R120). -/
theorem encodeLine_of_classLS {m : Mnemonic} {l : Line} (hm : (fmt m).cls = .LS)
    (hl : lookup (tokens l) = .ok m) :
    encodeLine l = (do
      let r ← regAt (tokens l) 1
      let v ← immAt (tokens l) 2
      (encodeLS m r v).map fun w => (w, hex w)) := by
  obtain ⟨mk, hparse, hencode⟩ := exists_parseLS_encodeLS hm
  simp only [← hencode]
  rw [encodeLine, parseLine_of_lookup hl, hparse, parseLS]
  cases regAt (tokens l) 1 <;> cases immAt (tokens l) 2 <;> rfl

theorem immOk10_iff {v : Int} : immOk 10 v = true ↔ -512 ≤ v ∧ v ≤ 511 :=
  immOk_iff

theorem encodeLS_ok (m : Mnemonic) {r : Nat} {v : Int} (hr : r ≤ 15) (hl : -512 ≤ v) (hu : v ≤ 511) :
    encodeLS m r v = .ok ((fmt m).opcode ++ BitVec.ofNat 4 r ++ BitVec.ofInt 10 v) := by
  rw [encodeLS_eq, regOk_iff.2 hr, immOk10_iff.2 ⟨hl, hu⟩]
  rfl

theorem encodeLS_error (m : Mnemonic) {r : Nat} {v : Int} (h : 16 ≤ r ∨ v < -512 ∨ 511 < v) :
    encodeLS m r v = .error .valueOutOfRange := by
  rw [encodeLS_eq, if_neg]
  simp only [Bool.and_eq_true, regOk_iff, immOk10_iff]
  omega

/-- The value of a format LS word as R120 writes it, over the integers. -/
theorem catLS_toNat_cast (o : BitVec 6) {r : Nat} (hr : r ≤ 15) (v : Int) :
    ((o ++ BitVec.ofNat 4 r ++ BitVec.ofInt 10 v : Word).toNat : Int) =
      o.toNat * 16384 + r * 1024 + v % 1024 := by
  rw [catLS_toNat o hr v]
  push_cast
  rw [Int.toNat_of_nonneg (Int.emod_nonneg v (by decide))]

/-- The mnemonics of class LS, with their opcodes. -/
theorem loadStoreRow_fmt :
    ∀ p ∈ [(Mnemonic.LD, 0b001010#6), (.ST, 0b001011#6)], fmt p.1 = ⟨p.2, .LS⟩ := by
  decide

/-- Settles O27: each clause is the class LS equation, followed to the reading that fails or through both
to format LS. -/
theorem loadStoreLines : Obligations.LoadStoreLines := by
  refine ⟨?lines, by decide, by decide, by decide, by decide⟩
  case lines =>
    rintro ⟨m, o⟩ hp l hl
    have hfmt : fmt m = ⟨o, .LS⟩ := loadStoreRow_fmt _ hp
    obtain rfl : (fmt m).opcode = o := by rw [hfmt]
    have line := encodeLine_of_classLS (by rw [hfmt]) hl
    refine ⟨?first, ?second, ?word⟩
    case first =>
      intro k h1
      rw [line, h1]
      rfl
    case second =>
      intro r k h1 h2
      rw [line, h1, h2]
      rfl
    case word =>
      intro r imm h1 h2
      have encoded : encodeLine l = (encodeLS m r imm).map fun w => (w, hex w) := by
        rw [line, h1, h2]
        rfl
      rw [encoded]
      constructor
      · rintro ⟨hr, hl, hu⟩
        refine ⟨_, ?_, rfl, catLS_toNat_cast _ hr imm⟩
        rw [encodeLS_ok m hr hl hu]
        rfl
      · intro h
        rw [encodeLS_error m h]
        rfl

end Sys2Proof
end

section
/-! PROOFS. The renderer (R145 to R150): the five digits of a word, the word read back from them, and the
first digit of an emitted line. -/

namespace Sys2Proof

open Sys2Proof.Machine

/-! ### One digit (R146) -/

theorem getElem?_hexAlphabet (d : BitVec 4) :
    (ascii "0123456789ABCDEF")[d.toNat]? = some (hexDigit d) := by
  revert d
  decide

theorem isUpperHex_hexDigit (d : BitVec 4) : isUpperHex (hexDigit d) = true := by
  revert d
  decide

theorem hexDigit_mem_zeroToFour {d : BitVec 4} (h : d.toNat ≤ 4) : hexDigit d ∈ ascii "01234" := by
  revert d
  decide

/-- One more digit at the end: the number so far moves up one place in base 16. -/
theorem readHex_append_hexDigit (l : Line) (d : BitVec 4) :
    readHex (l ++ [hexDigit d]) = 16 * readHex l + d.toNat := by
  have value : ∀ d : BitVec 4, (if (hexDigit d).toNat < 65 then (hexDigit d).toNat - 48
      else (hexDigit d).toNat - 55) = d.toNat := by decide
  rw [readHex, List.foldl_append, List.foldl_cons, List.foldl_nil, value, readHex]

/-! ### The five digits of a word (R145) -/

/-- The four bits at place `j` of base 16. -/
theorem toNat_hexPlace (w : Word) (j : Nat) :
    (w.extractLsb' (4 * j) 4).toNat = w.toNat / 16 ^ j % 16 := by
  rw [BitVec.extractLsb'_toNat, Nat.shiftRight_eq_div_pow, pow_mul]
  rfl

/-- The characters of the line, from place 4 down to place 0. -/
theorem hex_eq_map (w : Word) :
    hex w = [4, 3, 2, 1, 0].map fun j => hexDigit (w.extractLsb' (4 * j) 4) := rfl

theorem getElem?_hex (w : Word) {k : Nat} (hk : k < 5) :
    (hex w)[k]? = some (hexDigit (w.extractLsb' (4 * (4 - k)) 4)) := by
  have place : [4, 3, 2, 1, 0][k]? = some (4 - k) := by
    revert k
    decide
  rw [hex_eq_map, List.getElem?_map, place, Option.map_some]

/-- Settles O22: character `k` is the digit at place `4 - k`, by its bits and by its value. -/
theorem hexWritesTheFiveDigits : Obligations.HexWritesTheFiveDigits := by
  refine ⟨getElem?_hexAlphabet, fun w => ⟨hex_length w, fun k hk => ⟨?bits, ?value⟩⟩⟩
  case bits => rw [getElem?_hex w hk, Nat.mul_sub]
  case value => rw [getElem?_hex w hk, ← toNat_hexPlace, getElem?_hexAlphabet]

/-! ### The word read back (R148) -/

theorem isUpperHex_of_mem_hex {w : Word} {c : Byte} (h : c ∈ hex w) : isUpperHex c = true := by
  rw [hex_eq_map] at h
  obtain ⟨j, -, rfl⟩ := List.mem_map.1 h
  exact isUpperHex_hexDigit _

/-- The digits read so far, down to place `j`, are the word divided by `16 ^ j`. -/
theorem readHex_hex (w : Word) : readHex (hex w) = w.toNat := by
  have grow (l : Line) (j : Nat) (h : readHex l = w.toNat / 16 ^ (j + 1)) :
      readHex (l ++ [hexDigit (w.extractLsb' (4 * j) 4)]) = w.toNat / 16 ^ j := by
    rw [readHex_append_hexDigit, h, toNat_hexPlace, pow_succ, ← Nat.div_div_eq_div_mul, Nat.div_add_mod]
  have start : readHex [] = w.toNat / 16 ^ 5 := (Nat.div_eq_of_lt w.isLt).symm
  exact (grow _ 0 (grow _ 1 (grow _ 2 (grow _ 3 (grow [] 4 start))))).trans (Nat.div_one _)

/-- Settles O23: what is read back is the word, so equal lines are of equal words. -/
theorem hexReadsBack : Obligations.HexReadsBack := by
  refine ⟨fun w => ⟨hex_length w, fun c => isUpperHex_of_mem_hex, readHex_hex w⟩, ?injective⟩
  case injective =>
    intro w w' h
    apply BitVec.eq_of_toNat_eq
    rw [← readHex_hex w, h, readHex_hex w']

/-! ### The lines that are emitted (R150) -/

/-- A line that encodes is the line of an instruction that encodes. -/
theorem exists_encodeFields_of_encodeLine {l : Line} {w : Word} {h : Line}
    (he : encodeLine l = .ok (w, h)) : ∃ i, encodeFields i = .ok w := by
  cases hp : parseLine l with
  | error k =>
    rw [encodeLine_of_parse_error hp] at he
    cases he
  | ok i =>
    rw [encodeLine_of_parse hp, map_ok_iff] at he
    obtain ⟨w', hw, heq⟩ := he
    cases heq
    exact ⟨i, hw⟩

/-- The opcode of a produced word is at most 17, which bounds the word (R57, R150). -/
theorem produced_toNat_le {i : Instr} {w : Word} (h : encodeFields i = .ok w) : w.toNat ≤ 0x47FFF := by
  obtain ⟨hop, -⟩ := noUnassignedOpcodeAndNoOtherPad i w h
  rw [Laws.opcode_bits] at hop
  omega

theorem hex_head_mem_zeroToFour {w : Word} (h : w.toNat ≤ 0x47FFF) :
    ∃ c rest, hex w = c :: rest ∧ c ∈ ascii "01234" := by
  refine ⟨_, _, rfl, hexDigit_mem_zeroToFour ?_⟩
  rw [toNat_hexPlace w 4]
  omega

/-- Settles O24: an emitted line is that of a produced word, and the bound on the word bounds its first
digit; the examples by evaluation. -/
theorem emittedLinesBeginWithZeroToFour : Obligations.EmittedLinesBeginWithZeroToFour := by
  refine ⟨fun l w h he => ?line, by decide, by decide, by decide, by decide, by decide, by decide⟩
  case line =>
    obtain ⟨i, hi⟩ := exists_encodeFields_of_encodeLine he
    obtain rfl := encodeLine_hex he
    have bound := produced_toNat_le hi
    exact ⟨bound, hex_head_mem_zeroToFour bound⟩

end Sys2Proof
end

section
/-! PROOFS. The closed form of a run (R158, R159): `encodeRun` answers what its lines' own results, taken in
order, give. -/

namespace Sys2Proof

open Sys2Proof.Machine

/-! ### A run as its lines' results taken in order (R158) -/

/-- What the line with index `j` adds to a run: its hex text, or its error recorded at `j`. -/
def lineResult (j : Nat) (l : Line) : Except ErrorRecord Line :=
  match encodeLine l with
  | .error k => .error ⟨k, j⟩
  | .ok (_, h) => .ok h

theorem lineResult_ok_iff {j : Nat} {l h : Line} :
    lineResult j l = .ok h ↔ ∃ w, encodeLine l = .ok (w, h) := by
  rw [lineResult]
  cases encodeLine l <;> simp [Prod.ext_iff]

theorem lineResult_error_iff {j i : Nat} {l : Line} {k : ErrorKind} :
    lineResult j l = .error ⟨k, i⟩ ↔ encodeLine l = .error k ∧ j = i := by
  rw [lineResult]
  cases encodeLine l <;> simp

theorem encodeRunFrom_eq_mapM (i : Nat) (lines : List Line) :
    encodeRunFrom i lines = (lines.mapIdx fun j => lineResult (i + j)).mapM id := by
  induction lines generalizing i with
  | nil => rfl
  | cons l ls ih =>
    have shift : (fun j => lineResult (i + (j + 1))) = fun j => lineResult (i + 1 + j) := by
      funext j
      rw [Nat.add_right_comm, Nat.add_assoc]
    rw [List.mapIdx_cons, List.mapM_cons, shift, ← ih, encodeRunFrom, Nat.add_zero, id, lineResult]
    cases encodeLine l with
    | error k => rfl
    | ok r => cases encodeRunFrom (i + 1) ls <;> rfl

theorem encodeRun_eq_mapM (lines : List Line) :
    encodeRun lines = (lines.mapIdx lineResult).mapM id := by
  rw [encodeRun, encodeRunFrom_eq_mapM]
  simp only [Nat.zero_add]

/-! ### When a run succeeds, and with what output -/

theorem encodeRun_ok_iff {lines out : List Line} :
    encodeRun lines = .ok out ↔ out.length = lines.length ∧
      ∀ (j : Nat) l, lines[j]? = some l → ∃ w h, out[j]? = some h ∧ encodeLine l = .ok (w, h) := by
  rw [encodeRun_eq_mapM, mapM_id_ok_iff]
  constructor
  · intro same
    refine ⟨by simpa using (congrArg List.length same).symm, fun j l hl => ?_⟩
    have at_j : some (lineResult j l) = out[j]?.map .ok := by
      rw [← List.getElem?_map, ← same, List.getElem?_mapIdx, hl, Option.map_some]
    obtain ⟨h, hout, hr⟩ := Option.map_eq_some_iff.1 at_j.symm
    obtain ⟨w, hw⟩ := lineResult_ok_iff.1 hr.symm
    exact ⟨w, h, hout, hw⟩
  · rintro ⟨hlen, pointwise⟩
    refine List.ext_getElem? fun j => ?_
    rw [List.getElem?_mapIdx, List.getElem?_map]
    cases hl : lines[j]? with
    | none =>
      rw [List.getElem?_eq_none_iff, ← hlen, ← List.getElem?_eq_none_iff] at hl
      rw [hl, Option.map_none, Option.map_none]
    | some l =>
      obtain ⟨w, h, hout, hw⟩ := pointwise j l hl
      rw [hout, Option.map_some, Option.map_some, lineResult_ok_iff.2 ⟨w, hw⟩]

theorem encodeRun_append {a b x y : List Line} (ha : encodeRun a = .ok x) (hb : encodeRun b = .ok y) :
    encodeRun (a ++ b) = .ok (x ++ y) := by
  rw [encodeRun_ok_iff] at ha hb ⊢
  obtain ⟨lenA, pointA⟩ := ha
  obtain ⟨lenB, pointB⟩ := hb
  refine ⟨by rw [List.length_append, List.length_append, lenA, lenB], fun j l hl => ?_⟩
  by_cases hj : j < a.length
  case pos =>
    rw [List.getElem?_append_left hj] at hl
    rw [List.getElem?_append_left (lenA.symm ▸ hj)]
    exact pointA j l hl
  case neg =>
    have hj := Nat.le_of_not_lt hj
    rw [List.getElem?_append_right hj] at hl
    rw [List.getElem?_append_right (lenA.symm ▸ hj), lenA]
    exact pointB _ l hl

/-! ### When a run fails, and where -/

/-- The recorded index is that of the first line that fails, with that line's own kind. -/
theorem encodeRun_error_iff {lines : List Line} {k : ErrorKind} {i : Nat} :
    encodeRun lines = .error ⟨k, i⟩ ↔
      (∃ l, lines[i]? = some l ∧ encodeLine l = .error k) ∧
      ∀ (j : Nat) l, j < i → lines[j]? = some l → ∃ r, encodeLine l = .ok r := by
  rw [encodeRun_eq_mapM, mapM_id_error_iff]
  simp only [List.getElem?_mapIdx, Option.map_eq_some_iff, lineResult_error_iff, lineResult_ok_iff]
  constructor
  · rintro ⟨i, ⟨l, hl, he, rfl⟩, earlier⟩
    refine ⟨⟨l, hl, he⟩, fun j l' hj hl' => ?_⟩
    obtain ⟨h, l'', hl'', w, hw⟩ := earlier j hj
    cases hl'.symm.trans hl''
    exact ⟨(w, h), hw⟩
  · rintro ⟨⟨l, hl, he⟩, earlier⟩
    refine ⟨i, ⟨l, hl, he, rfl⟩, fun j hj => ?_⟩
    have hlt : j < lines.length := hj.trans (List.getElem?_eq_some_iff.1 hl).1
    obtain ⟨⟨w, h⟩, hw⟩ := earlier j _ hj (List.getElem?_eq_getElem hlt)
    exact ⟨h, _, List.getElem?_eq_getElem hlt, w, hw⟩

/-- Lines after the failing one have no influence. -/
theorem encodeRun_take_append_error {lines : List Line} {k : ErrorKind} {i : Nat}
    (he : encodeRun lines = .error ⟨k, i⟩) (later : List Line) :
    encodeRun (lines.take (i + 1) ++ later) = .error ⟨k, i⟩ := by
  rw [encodeRun_error_iff] at he ⊢
  obtain ⟨⟨l, hl, hk⟩, earlier⟩ := he
  have hi : i < lines.length := (List.getElem?_eq_some_iff.1 hl).1
  have kept : ∀ j ≤ i, (lines.take (i + 1) ++ later)[j]? = lines[j]? := by
    intro j hj
    rw [List.getElem?_append_left (by rw [List.length_take]; omega),
      List.getElem?_take_of_lt (Nat.lt_succ_of_le hj)]
  exact ⟨⟨l, by rw [kept i le_rfl, hl], hk⟩, fun j l' hj hl' => earlier j l' hj (kept j hj.le ▸ hl')⟩

/-- Settles O47: the laws are read off from when a run succeeds and when it fails. -/
theorem lawsOfARun : Obligations.LawsOfARun := by
  refine ⟨?count, fun _ _ => encodeRun_ok_iff, ?firstError, fun _ _ _ _ => encodeRun_append, rfl⟩
  case count =>
    intro lines out h
    exact (encodeRun_ok_iff.1 h).1
  case firstError =>
    intro lines k i h
    obtain ⟨failing, earlier⟩ := encodeRun_error_iff.1 h
    exact ⟨failing, earlier, encodeRun_take_append_error h⟩

end Sys2Proof
end

section
/-! PROOFS. The error of a line (R170 to R178): the token of an operand position says how its reading fails
and whether its value has a field; what a line reports follows position by position. -/

namespace Sys2Proof

open Sys2Proof.Machine

/-! ### The reading of a position and its token (R74, R178) -/

/-- The value that a token has at a position of the given kind (R75, R78). -/
def Denotes (t : Line) : OperandKind → OperandValue → Prop
  | .register, .reg n    => IsRegToken t n
  | .immediate _, .imm v => IsImmToken t v
  | _, _                 => False

theorem fitsPosition_iff {t : Line} {kind : OperandKind} :
    FitsPosition t kind ↔ ∃ x, Denotes t kind x := by
  constructor
  · cases kind with
    | register => exact fun ⟨n, hn⟩ => ⟨.reg n, hn⟩
    | immediate w => exact fun ⟨v, hv⟩ => ⟨.imm v, hv⟩
  · rintro ⟨x, hx⟩
    cases kind <;> cases x
    case register.reg n => exact ⟨n, hx⟩
    case immediate.imm v => exact ⟨v, hx⟩
    all_goals exact hx.elim

theorem readPosition_ok_iff {toks : List Line} {kind : OperandKind} {j : Nat} {t : Line}
    {x : OperandValue} (ht : toks[j + 1]? = some t) :
    readPosition toks kind j = .ok x ↔ Denotes t kind x := by
  cases kind <;> cases x <;>
    simp [readPosition, regAt, immAt, ht, Denotes, map_ok_iff, parseReg_ok_iff, parseImm_ok_iff]

theorem map_error_iff {ε α β : Type} {r : Except ε α} {f : α → β} {e : ε} :
    r.map f = .error e ↔ r = .error e := by
  cases r <;> simp [Except.map]

/-- The two ways a reading can fail: no token, or a token that does not parse. -/
theorem readPosition_error_cases {toks : List Line} {kind : OperandKind} {j : Nat} {e : ErrorKind}
    (h : readPosition toks kind j = .error e) :
    (toks[j + 1]? = none ∧ e = .operandCountMismatch) ∨
      ∃ t, toks[j + 1]? = some t ∧ e = .malformedOperand := by
  cases kind with
  | register => exact (regAt_error (map_error_iff.1 h)).imp_right fun ⟨t, ht, _, he⟩ => ⟨t, ht, he⟩
  | immediate w => exact (immAt_error (map_error_iff.1 h)).imp_right fun ⟨t, ht, _, he⟩ => ⟨t, ht, he⟩

theorem readPosition_error_iff {toks : List Line} {kind : OperandKind} {j : Nat} {e : ErrorKind} :
    readPosition toks kind j = .error e ↔ PositionFails toks kind j e := by
  constructor
  · intro h
    refine (readPosition_error_cases h).imp_right fun ⟨t, ht, he⟩ => ⟨t, ht, fun fits => ?_, he⟩
    obtain ⟨x, hx⟩ := fitsPosition_iff.1 fits
    cases h.symm.trans ((readPosition_ok_iff ht).2 hx)
  · rintro (⟨absent, rfl⟩ | ⟨t, ht, unfit, rfl⟩)
    · exact readPosition_missing (List.getElem?_eq_none_iff.1 absent) kind
    · cases hr : readPosition toks kind j with
      | ok x => exact absurd (fitsPosition_iff.2 ⟨x, (readPosition_ok_iff ht).1 hr⟩) unfit
      | error e =>
        obtain ⟨absent, -⟩ | ⟨t, -, rfl⟩ := readPosition_error_cases hr
        · cases ht.symm.trans absent
        · rfl

theorem exists_readPosition_ok_iff {toks : List Line} {kind : OperandKind} {j : Nat} :
    (∃ x, readPosition toks kind j = .ok x) ↔ ∀ e, ¬PositionFails toks kind j e := by
  simp only [← readPosition_error_iff]
  cases readPosition toks kind j <;> simp

/-! ### The range of a position's value (R76, R80) -/

/-- The value has a field at a position of the given kind. -/
def HasField : OperandKind → OperandValue → Prop
  | .register, .reg n    => regOk n = true
  | .immediate w, .imm v => immOk w v = true
  | _, _                 => False

/-- An instruction is well-formed when each of its operands has a field at its position. -/
theorem wf_iff_forall₂ {i : Instr} :
    i.wf = true ↔ List.Forall₂ HasField (positions i.mnemonic) i.operands := by
  cases i <;>
    simp [Instr.wf, positions, Instr.mnemonic, fmt, operandKinds, Instr.operands, HasField, and_assoc]

theorem wf_iff {i : Instr} : i.wf = true ↔ ∀ (j : Nat) (kind : OperandKind) (x : OperandValue),
    (positions i.mnemonic)[j]? = some kind → i.operands[j]? = some x → HasField kind x := by
  have same_length : (positions i.mnemonic).length = i.operands.length := by cases i <;> rfl
  simp only [wf_iff_forall₂, List.forall₂_iff_zip, same_length, true_and, List.mem_iff_getElem?,
    List.getElem?_zip_eq_some]
  exact ⟨fun h j kind x hk hx => h ⟨j, hk, hx⟩, fun h kind x ⟨j, hk, hx⟩ => h j kind x hk hx⟩

theorem outOfRange_iff {t : Line} {kind : OperandKind} :
    OutOfRange t kind ↔ ∃ x, Denotes t kind x ∧ ¬HasField kind x := by
  constructor
  · cases kind with
    | register => exact fun ⟨n, hn, hr⟩ => ⟨.reg n, hn, by rw [HasField, regOk_iff]; omega⟩
    | immediate w => exact fun ⟨v, hv, hr⟩ => ⟨.imm v, hv, by rw [HasField, immOk_iff]; omega⟩
  · rintro ⟨x, hx, hr⟩
    cases kind <;> cases x
    case register.reg n =>
      rw [HasField, regOk_iff] at hr
      exact ⟨n, hx, by omega⟩
    case immediate.imm v =>
      rw [HasField, immOk_iff] at hr
      exact ⟨v, hx, by omega⟩
    all_goals exact hx.elim

/-- A line's instruction is well-formed when no token of its positions is out of range. -/
theorem wf_iff_not_outOfRange {m : Mnemonic} {toks : List Line} {i : Instr}
    (h : parseOperands m toks = .ok i) :
    i.wf = true ↔ ∀ j kind t, (positions m)[j]? = some kind → toks[j + 1]? = some t →
      ¬OutOfRange t kind := by
  obtain ⟨rfl, readings⟩ := parseOperands_ok_iff.1 h
  obtain ⟨-, read⟩ := readPositions_eq_map_ok_iff.1 readings
  rw [wf_iff]
  constructor
  · intro fields j kind t hk ht out
    obtain ⟨x, hr, hx⟩ := read j kind hk
    obtain ⟨y, hy, hout⟩ := outOfRange_iff.1 out
    cases hr.symm.trans ((readPosition_ok_iff ht).2 hy)
    exact hout (fields j kind _ hk hx)
  · intro inRange j kind x hk hx
    obtain ⟨y, hr, hy⟩ := read j kind hk
    obtain rfl := Option.some.inj (hx.symm.trans hy)
    cases ht : toks[j + 1]? with
    | none =>
      cases hr.symm.trans (readPosition_missing (List.getElem?_eq_none_iff.1 ht) kind)
    | some t =>
      by_contra noField
      exact inRange j kind t hk ht (outOfRange_iff.2 ⟨x, (readPosition_ok_iff ht).1 hr, noField⟩)

/-! ### The error kinds of a line's three stages (R171 to R174) -/

theorem parseLine_of_lookup_error {l : Line} {e : ErrorKind} (h : lookup (tokens l) = .error e) :
    parseLine l = .error e := by
  rw [parseLine, h]
  rfl

theorem parseOperands_error_iff_leftmost {m : Mnemonic} {toks : List Line} {e : ErrorKind} :
    parseOperands m toks = .error e ↔ ∃ j kind, (positions m)[j]? = some kind ∧
      PositionFails toks kind j e ∧ ∀ j' kind', j' < j → (positions m)[j']? = some kind' →
        ∀ e', ¬PositionFails toks kind' j' e' := by
  simp only [parseOperands_error_iff, readPositions_error_iff, readPosition_error_iff,
    exists_readPosition_ok_iff]

theorem exists_parseOperands_ok_iff {m : Mnemonic} {toks : List Line} :
    (∃ i, parseOperands m toks = .ok i) ↔
      ∀ j kind e, (positions m)[j]? = some kind → ¬PositionFails toks kind j e := by
  constructor
  · rintro ⟨i, hi⟩ j kind e hk
    obtain ⟨-, readings⟩ := parseOperands_ok_iff.1 hi
    obtain ⟨-, read⟩ := readPositions_eq_map_ok_iff.1 readings
    obtain ⟨x, hx, -⟩ := read j kind hk
    exact exists_readPosition_ok_iff.1 ⟨x, hx⟩ e
  · intro pass
    cases hp : parseOperands m toks with
    | ok i => exact ⟨i, rfl⟩
    | error e =>
      obtain ⟨j, kind, hk, fails, -⟩ := parseOperands_error_iff_leftmost.1 hp
      exact absurd fails (pass j kind e hk)

theorem PositionFails.kind_eq {toks : List Line} {kind : OperandKind} {j : Nat} {e : ErrorKind}
    (h : PositionFails toks kind j e) : e = .operandCountMismatch ∨ e = .malformedOperand :=
  h.imp And.right fun ⟨_, _, _, he⟩ => he

theorem parseLine_error_kind {l : Line} {e : ErrorKind} (h : parseLine l = .error e) :
    e = .unknownInstruction ∨ e = .operandCountMismatch ∨ e = .malformedOperand := by
  cases hl : lookup (tokens l) with
  | error k =>
    cases h.symm.trans (parseLine_of_lookup_error hl)
    exact .inl (lookup_error hl)
  | ok m =>
    rw [parseLine_of_lookup hl, parseOperands_error_iff_leftmost] at h
    obtain ⟨j, kind, -, fails, -⟩ := h
    exact .inr fails.kind_eq

theorem exists_encodeFields_eq_checked (i : Instr) :
    ∃ w, encodeFields i = if i.wf then .ok w else .error .valueOutOfRange := by
  cases i
  case add | or | nand | sub | sll => exact ⟨_, encodeR_eq _ _ _ _⟩
  case addi | ori | nandi | subi | slli => exact ⟨_, encodeI_eq _ _ _ _⟩
  case ld | st => exact ⟨_, encodeLS_eq _ _ _⟩
  case jump => exact ⟨_, encodeJ_eq _ _⟩
  case beq | blt | bgt | ble | bge => exact ⟨_, encodeB_eq _ _ _ _⟩

theorem encodeFields_error_iff {i : Instr} {e : ErrorKind} :
    encodeFields i = .error e ↔ i.wf = false ∧ e = .valueOutOfRange := by
  obtain ⟨w, hw⟩ := exists_encodeFields_eq_checked i
  rw [hw]
  cases i.wf <;> simp [eq_comm]

theorem exists_encodeFields_ok {i : Instr} (h : i.wf = true) : ∃ w, encodeFields i = .ok w := by
  obtain ⟨w, hw⟩ := exists_encodeFields_eq_checked i
  exact ⟨w, by rw [hw, if_pos h]⟩

/-- A line fails where it is parsed, or with an operand that has no field. -/
theorem encodeLine_error_iff {l : Line} {e : ErrorKind} :
    encodeLine l = .error e ↔ parseLine l = .error e ∨
      ∃ i, parseLine l = .ok i ∧ i.wf = false ∧ e = .valueOutOfRange := by
  cases hp : parseLine l with
  | error k => simp [encodeLine_of_parse_error hp]
  | ok i => simp [encodeLine_of_parse hp, map_error_iff, encodeFields_error_iff]

theorem exists_encodeLine_ok {l : Line} {i : Instr} (hp : parseLine l = .ok i) (h : i.wf = true) :
    ∃ w, encodeLine l = .ok (w, hex w) := by
  obtain ⟨w, hw⟩ := exists_encodeFields_ok h
  exact ⟨w, by rw [encodeLine_of_parse hp, hw]; rfl⟩

end Sys2Proof
end

section
/-! PROOFS. Which error a line and a run report (R178). -/

namespace Sys2Proof

open Sys2Proof.Machine

/-- A malformed token is reported wherever it stands: every position to its left has a token too, so the
leftmost failing one is malformed. -/
theorem parseOperands_malformed {m : Mnemonic} {toks : List Line} {j : Nat} {kind : OperandKind}
    (hk : (positions m)[j]? = some kind) (h : PositionFails toks kind j .malformedOperand) :
    parseOperands m toks = .error .malformedOperand := by
  cases hp : parseOperands m toks with
  | ok i => exact absurd h (exists_parseOperands_ok_iff.1 ⟨i, hp⟩ j kind _ hk)
  | error e =>
    obtain ⟨j₀, kind₀, -, fails₀, before₀⟩ := parseOperands_error_iff_leftmost.1 hp
    have leftmost : j₀ ≤ j := by
      by_contra hlt
      exact before₀ j kind (by omega) hk _ h
    obtain ⟨-, he⟩ | ⟨t, ht, -, -⟩ := h
    · cases he
    obtain ⟨absent, -⟩ | ⟨-, -, -, rfl⟩ := fails₀
    · have := List.getElem?_eq_none_iff.1 absent
      have := (List.getElem?_eq_some_iff.1 ht).1
      omega
    · rfl

theorem parseOperands_missing_of_not_malformed {m : Mnemonic} {toks : List Line}
    (h : ∀ j kind, (positions m)[j]? = some kind → ¬PositionFails toks kind j .malformedOperand)
    (hlen : toks.length ≤ (positions m).length) :
    parseOperands m toks = .error .operandCountMismatch := by
  refine parseOperands_missing hlen fun j kind hk hj => exists_readPosition_ok_iff.2 fun e fails => ?_
  obtain rfl | rfl := fails.kind_eq
  · obtain ⟨absent, -⟩ | ⟨-, -, -, he⟩ := fails
    · exact absurd (List.getElem?_eq_none_iff.1 absent) (by omega)
    · cases he
  · exact h j kind hk fails

/-- Settles O17: the stages of a line in order, then the first failing line of a run. -/
theorem oneErrorIsReportedInThisOrder : Obligations.OneErrorIsReportedInThisOrder := by
  refine ⟨?lookup, fun l m hl => ?_, fun _ _ _ => encodeRun_error_iff⟩
  case lookup =>
    intro l h
    cases hl : lookup (tokens l) with
    | ok m => exact absurd hl (h m)
    | error e =>
      obtain rfl := lookup_error hl
      exact encodeLine_of_parse_error (parseLine_of_lookup_error hl)
  have parsed := parseLine_of_lookup hl
  refine ⟨?leftmost, ?malformed, ?missing, fun pass => ?_⟩
  case leftmost =>
    intro j kind e hk fails before
    refine encodeLine_of_parse_error (parsed.trans (parseOperands_error_iff_leftmost.2 ?_))
    exact ⟨j, kind, hk, fails, fun j' kind' hj hk' e' => before j' kind' e' hj hk'⟩
  case malformed =>
    intro j kind hk fails
    exact encodeLine_of_parse_error (parsed.trans (parseOperands_malformed hk fails))
  case missing =>
    intro h hlen
    exact encodeLine_of_parse_error (parsed.trans (parseOperands_missing_of_not_malformed h hlen))
  obtain ⟨i, hi⟩ := exists_parseOperands_ok_iff.2 pass
  have range := wf_iff_not_outOfRange hi
  rw [hi] at parsed
  constructor
  · rintro ⟨j, kind, t, hk, ht, out⟩
    have ill : i.wf = false := Bool.eq_false_iff.2 fun wf => range.1 wf j kind t hk ht out
    exact encodeLine_error_iff.2 (.inr ⟨i, parsed, ill, rfl⟩)
  · exact fun h => exists_encodeLine_ok parsed (range.2 h)

end Sys2Proof
end

section
/-! PROOFS. What raises `ValueOutOfRange`, and that nothing raises `IOFailure` (R174, R176). -/

namespace Sys2Proof

open Sys2Proof.Machine

theorem regField_error_iff {i : Nat} : regField i = .error .valueOutOfRange ↔ 16 ≤ i := by
  refine ⟨fun h => ?_, regField_error⟩
  by_contra hi
  cases h.symm.trans (regField_ok (by omega))

theorem immField_error_iff {w : Nat} {v : Int} : immField w v = .error .valueOutOfRange ↔
    v < -(2 : Int) ^ (w - 1) ∨ v > (2 : Int) ^ (w - 1) - 1 := by
  refine ⟨fun h => ?_, immField_error⟩
  by_contra hv
  cases h.symm.trans (immField_ok (by omega) (by omega))

/-- Every error a parse can end in comes before ranges are looked at. -/
theorem encodeLine_valueOutOfRange_iff {l : Line} :
    encodeLine l = .error .valueOutOfRange ↔ ∃ i, parseLine l = .ok i ∧ i.wf = false := by
  have not_parsing : parseLine l ≠ .error .valueOutOfRange := fun h => by
    simpa using parseLine_error_kind h
  simp [encodeLine_error_iff, not_parsing]

/-- An operand of the form its position demands, with a value that no field of the machine holds. -/
def oversizedOperand : OperandKind → Line
  | .register    => printReg 16
  | .immediate _ => printImm 8192

/-- A line of the mnemonic with every operand oversized. -/
def oversizedLine (m : Mnemonic) : Line := printWith m ((positions m).map oversizedOperand)

theorem oversizedLine_raises (m : Mnemonic) : lookup (tokens (oversizedLine m)) = .ok m ∧
    encodeLine (oversizedLine m) = .error .valueOutOfRange := by
  cases m <;> decide

/-- Settles O36: each encoder answers by range alone, and a line answers by the range of what it parses
to. -/
theorem valueOutOfRangeIsRaisedHere : Obligations.ValueOutOfRangeIsRaisedHere :=
  ⟨fun _ => regField_error_iff, fun _ _ _ => immField_error_iff,
    fun _ => encodeLine_valueOutOfRange_iff, fun m => ⟨oversizedLine m, oversizedLine_raises m⟩⟩

theorem encodeLine_ne_ioFailure (l : Line) : encodeLine l ≠ .error .ioFailure := by
  intro h
  obtain hp | ⟨i, -, -, hk⟩ := encodeLine_error_iff.1 h
  · simpa using parseLine_error_kind hp
  · cases hk

theorem errOut_eq_five_iff {α : Type} {r : Except ErrorKind α} :
    errOut r = 5#3 ↔ r = .error .ioFailure := by
  cases r with
  | ok x => simp [errOut]
  | error k => cases k <;> simp [errOut, errorCode]

/-- Settles O50: what a port, a run and a step report is the error of a line. -/
theorem ioFailureIsNeverRaised : Obligations.IOFailureIsNeverRaised := by
  refine ⟨encodeLine_ne_ioFailure, ?port, ?run, ?step, rfl⟩
  case port => exact fun l h => encodeLine_ne_ioFailure l (errOut_eq_five_iff.1 h)
  case run =>
    intro lines i h
    obtain ⟨⟨l, -, hl⟩, -⟩ := encodeRun_error_iff.1 h
    exact encodeLine_ne_ioFailure l hl
  case step =>
    intro s t n hs h
    obtain ⟨-, l, rest, -, ⟨w, -, rfl⟩ | ⟨k, hk, rfl⟩⟩ := step_next h
    · simp [hs]
    · intro hf
      rw [raiseError_fault] at hf
      cases hf
      exact encodeLine_ne_ioFailure l hk

end Sys2Proof
end

section
/-! PROOFS. The field datapath and the sums of the rules (R100 to R135), and the round trips between
instructions and words (R45 to R60). -/

namespace Sys2Proof

open Sys2Proof.Machine

/-! ### Each format's concatenation is its sum -/

theorem encodeR_eq_wordR (m : Mnemonic) (d a b : Nat) : encodeR m d a b =
    if regOk d && regOk a && regOk b then .ok (wordR m d a b) else .error .valueOutOfRange := by
  rw [encodeR_eq]
  split
  case isFalse => rfl
  case isTrue h =>
    simp only [Bool.and_eq_true, regOk_iff, and_assoc] at h
    obtain ⟨hd, ha, hb⟩ := h
    exact congrArg Except.ok (eq_ofNat_of_toNat (catR_toNat _ hd ha hb))

theorem encodeI_eq_wordRRI (m : Mnemonic) (d a : Nat) (v : Int) : encodeI m d a v =
    if regOk d && regOk a && immOk 6 v then .ok (wordRRI m d a v) else .error .valueOutOfRange := by
  rw [encodeI_eq]
  split
  case isFalse => rfl
  case isTrue h =>
    simp only [Bool.and_eq_true, regOk_iff, and_assoc] at h
    obtain ⟨hd, ha, -⟩ := h
    exact congrArg Except.ok (eq_ofNat_of_toNat (catRRI_toNat _ hd ha v))

theorem encodeLS_eq_wordLS (m : Mnemonic) (r : Nat) (v : Int) : encodeLS m r v =
    if regOk r && immOk 10 v then .ok (wordLS m r v) else .error .valueOutOfRange := by
  rw [encodeLS_eq]
  split
  case isFalse => rfl
  case isTrue h =>
    rw [Bool.and_eq_true, regOk_iff] at h
    exact congrArg Except.ok (eq_ofNat_of_toNat (catLS_toNat _ h.1 v))

theorem encodeJ_eq_wordJ (m : Mnemonic) (v : Int) : encodeJ m v =
    if immOk 14 v then .ok (wordJ m v) else .error .valueOutOfRange := by
  rw [encodeJ_eq, eq_ofNat_of_toNat (catJ_toNat (fmt m).opcode v), wordJ]

/-- Settles O6: each format's concatenation, where it is formed, is its sum. -/
theorem fieldsAgreeWithTheSums : Obligations.FieldsAgreeWithTheSums := by
  intro i
  cases i
  case add | or | nand | sub | sll => exact encodeR_eq_wordR _ _ _ _
  case addi | ori | nandi | subi | slli => exact encodeI_eq_wordRRI _ _ _ _
  case ld | st => exact encodeLS_eq_wordLS _ _ _
  case jump => exact encodeJ_eq_wordJ _ _
  case beq | blt | bgt | ble | bge => exact encodeI_eq_wordRRI _ _ _ _

/-! ### Instructions to words and back -/

theorem encodeFields_of_wf {i : Instr} (h : i.wf = true) : encodeFields i = .ok (encode i) := by
  rw [fieldsAgreeWithTheSums i, if_pos h]

/-- Settles O3: the word of a well-formed instruction is the datapath's, whose words decode. -/
theorem decodeOfEncodeIsTheInstruction : Obligations.DecodeOfEncodeIsTheInstruction :=
  fun _ h => encodeFields_ok_iff_decodeWord.1 (encodeFields_of_wf h)

/-- Settles O4: the datapath produces a word that decodes, and only well-formed instructions have one. -/
theorem encodeOfDecodeIsTheWord : Obligations.EncodeOfDecodeIsTheWord := by
  intro w i h
  have produced := encodeFields_ok_iff_decodeWord.2 h
  rw [fieldsAgreeWithTheSums i, checked_ok_iff] at produced
  exact produced.imp_right Eq.symm

/-- Settles O2: one word of each format. -/
theorem writtenOutWordsDecode : Obligations.WrittenOutWordsDecode :=
  ⟨by decide, by decide, by decide, by decide, by decide⟩

/-! ### The words that are rejected (R56, R57) -/

theorem decodeWord_of_opcode {w : Word} {m : Mnemonic} (h : w.extractLsb' 14 6 = (fmt m).opcode) :
    decodeWord w = readFields m w := by
  rw [decodeWord, mnemonicOf_eq_some_iff.2 h]

theorem decodeWord_unassigned {w : Word} (h : 18 ≤ (w.extractLsb' 14 6).toNat) :
    decodeWord w = .error .unassignedOpcode := by
  rw [decodeWord]
  cases hm : mnemonicOf (w.extractLsb' 14 6) with
  | none => rfl
  | some m =>
    have assigned := opcode_toNat_lt m
    rw [← mnemonicOf_eq_some_iff.1 hm] at assigned
    omega

theorem readR_error_iff {mk : Nat → Nat → Nat → Instr} {w : Word} {e : WordError} :
    readR mk w = .error e ↔ w.extractLsb' 0 2 ≠ 0b00#2 ∧ e = .nonzeroPad := by
  rw [readR]
  split <;> simp_all [eq_comm]

/-- Reading the fields of a known mnemonic fails in one way. -/
theorem readFields_error_iff {m : Mnemonic} {w : Word} {e : WordError} :
    readFields m w = .error e ↔ ¬ReadableAs m w ∧ e = .nonzeroPad := by
  cases m
  case ADD | OR | NAND | SUB | SLL => simp [readFields, readR_error_iff, ReadableAs, fmt]
  all_goals simp [readFields, readRRI, readLS, readJ, ReadableAs, fmt]

/-- Settles O5: an opcode of no mnemonic is the first rejection, class R padding the second. -/
theorem rejectedWordsAreNamed : Obligations.RejectedWordsAreNamed := by
  intro w
  by_cases assigned : (w.extractLsb' 14 6).toNat < 18
  case pos =>
    obtain ⟨m, hm⟩ := exists_opcode_eq assigned
    simp only [decodeWord_of_opcode hm, readFields_error_iff, ReadableAs, cls_eq_R_iff, ← hm]
    exact ⟨by simpa using assigned, by simp⟩
  case neg =>
    simp only [decodeWord_unassigned (Nat.le_of_not_lt assigned)]
    exact ⟨by simpa using assigned, nofun, fun h => by omega⟩

end Sys2Proof
end

section
/-! PROOFS. The printed form (R64, D26): a line read back position by position. -/

namespace Sys2Proof

open Sys2Proof.Machine

/-- An operand in print (R64). -/
def printOperand : OperandValue → Line
  | .reg i => printReg i
  | .imm v => printImm v

theorem isToken_printOperand (x : OperandValue) : IsToken (printOperand x) := by
  cases x with
  | reg i => exact isToken_printReg i
  | imm v => exact isToken_printImm v

theorem printLine_eq_printWith (i : Instr) :
    printLine i = printWith i.mnemonic (i.operands.map printOperand) := by
  cases i <;> rfl

/-- Every printed operand is read, at its position, as what was printed. -/
theorem readPositions_printed (t : Line) (i : Instr) :
    readPositions (t :: i.operands.map printOperand) (positions i.mnemonic) = i.operands.map .ok := by
  cases i <;>
    simp [Instr.operands, Instr.mnemonic, positions, fmt, operandKinds, readPositions, readPosition,
      regAt, immAt, printOperand, parseReg_printReg, parseImm_printImm, Except.map]

/-- Settles O18: the tokens of the printed form are the mnemonic and the printed operands. -/
theorem printedFormParsesBack : Obligations.PrintedFormParsesBack := by
  intro i
  have operands_are_tokens : ∀ t ∈ i.operands.map printOperand, IsToken t :=
    List.forall_mem_map.2 fun x _ => isToken_printOperand x
  rw [printLine_eq_printWith, parseLine_printWith _ operands_are_tokens, parseOperands_ok_iff]
  exact ⟨rfl, readPositions_printed _ i⟩

/-- Settles O19: the printed form parses back, and the datapath's word is the sum. -/
theorem printedFormEncodes : Obligations.PrintedFormEncodes := by
  intro i h
  rw [encodeLine_of_parse (printedFormParsesBack i), encodeFields_of_wf h]
  rfl

end Sys2Proof
end

section
/-! PROOFS. The letter case of a mnemonic (R72). -/

namespace Sys2Proof

open Sys2Proof.Machine

theorem upperByte_toNat (c : Byte) : (upperByte c).toNat =
    if 0x61 ≤ c.toNat ∧ c.toNat ≤ 0x7A then c.toNat - 0x20 else c.toNat := by
  have lower_case : 0x61#8 ≤ c ∧ c ≤ 0x7A#8 ↔ 0x61 ≤ c.toNat ∧ c.toNat ≤ 0x7A := Iff.rfl
  simp only [upperByte, ← lower_case]
  split
  case isTrue h => exact BitVec.toNat_sub_of_le (BitVec.le_trans (by decide) h.1)
  case isFalse => rfl

/-- `Lookup` reads token 0 upper-cased. -/
theorem lookup_congr {t t' : Line} (h : upper t = upper t') (ts : List Line) :
    lookup (t :: ts) = lookup (t' :: ts) := by
  rw [lookup, lookup, h]

/-- The operands are read from the tokens after token 0. -/
theorem parseOperands_congr_head (m : Mnemonic) (t t' : Line) (ts : List Line) :
    parseOperands m (t :: ts) = parseOperands m (t' :: ts) :=
  parseOperands_congr rfl

/-- Settles O12: `Lookup` sees the first token in upper case only, and nothing else reads it. -/
theorem mnemonicCaseDoesNotMatter : Obligations.MnemonicCaseDoesNotMatter := by
  refine ⟨upperByte_toNat, fun l l' t t' ts hl hl' h => ?_⟩
  have same : parseLine l = parseLine l' := by
    simp only [parseLine, hl, hl', lookup_congr h, parseOperands_congr_head _ t t']
  rw [encodeLine, encodeLine, same]

end Sys2Proof
end

section
/-! PROOFS. What a meaning answers (R15, R179): the instructions of each class complete, an operand out of
range takes the error, and nothing else changes. -/

namespace Sys2Proof

open Sys2Proof.Machine

/-! ### The next state, written out -/

theorem emit_eq {s : State} (h : s.fault = none) (w : Word) : emit w s =
    { idx := s.idx + 1, out := s.out ++ [hex w], fault := none, input := s.input.tail } :=
  State.eq_of_fields rfl rfl h rfl

theorem exec_of_encodeFields_ok {i : Instr} {s : State} {w : Word} (h : s.fault = none)
    (hw : encodeFields i = .ok w) : exec i s = .next
      { idx := s.idx + 1, out := s.out ++ [hex w], fault := none, input := s.input.tail } := by
  rw [exec_eq_deliver, hw, deliver_ok h, emit_eq h]

/-- Everything a meaning can do when it answers a next state. -/
theorem exec_next {i : Instr} {s t : State} (h : exec i s = .next t) : s.fault = none ∧
    ((∃ w, encodeFields i = .ok w ∧ t = emit w s) ∨
      ∃ k, encodeFields i = .error k ∧ t = raiseError k s) := by
  rw [exec_eq_deliver] at h
  exact deliver_next h

/-- A meaning that completes counts one line, whatever its operands (R131, R136 to R140). -/
theorem exec_completes_idx {i : Instr} {s t : State} (h : exec i s = .next t) (ht : t.fault = none) :
    t.idx = s.idx + 1 := by
  obtain ⟨-, ⟨w, -, rfl⟩ | ⟨k, -, rfl⟩⟩ := exec_next h
  · rfl
  · cases ht

/-! ### The instructions of each class, with their datapath -/

theorem rTypeRow_encodeFields : ∀ p ∈ [(Instr.add, 0b000000#6), (.or, 0b000001#6), (.nand, 0b000010#6),
    (.sub, 0b000011#6), (.sll, 0b000100#6)],
    ∃ m, (fmt m).opcode = p.2 ∧ ∀ d a b, encodeFields (p.1 d a b) = encodeR m d a b := by
  simp only [List.forall_mem_cons]
  exact ⟨⟨.ADD, rfl, fun _ _ _ => rfl⟩, ⟨.OR, rfl, fun _ _ _ => rfl⟩, ⟨.NAND, rfl, fun _ _ _ => rfl⟩,
    ⟨.SUB, rfl, fun _ _ _ => rfl⟩, ⟨.SLL, rfl, fun _ _ _ => rfl⟩, nofun⟩

theorem iTypeRow_encodeFields : ∀ p ∈ [(Instr.addi, 0b000101#6), (.ori, 0b000110#6),
    (.nandi, 0b000111#6), (.subi, 0b001000#6), (.slli, 0b001001#6)],
    ∃ m, (fmt m).opcode = p.2 ∧ ∀ d a v, encodeFields (p.1 d a v) = encodeI m d a v := by
  simp only [List.forall_mem_cons]
  exact ⟨⟨.ADDI, rfl, fun _ _ _ => rfl⟩, ⟨.ORI, rfl, fun _ _ _ => rfl⟩,
    ⟨.NANDI, rfl, fun _ _ _ => rfl⟩, ⟨.SUBI, rfl, fun _ _ _ => rfl⟩, ⟨.SLLI, rfl, fun _ _ _ => rfl⟩,
    nofun⟩

theorem loadStoreRow_encodeFields : ∀ p ∈ [(Instr.ld, 0b001010#6), (.st, 0b001011#6)],
    ∃ m, (fmt m).opcode = p.2 ∧ ∀ r v, encodeFields (p.1 r v) = encodeLS m r v := by
  simp only [List.forall_mem_cons]
  exact ⟨⟨.LD, rfl, fun _ _ => rfl⟩, ⟨.ST, rfl, fun _ _ => rfl⟩, nofun⟩

/-- Class B shares the datapath of class I. -/
theorem branchRow_encodeFields : ∀ p ∈ [(Instr.beq, 0b001101#6), (.blt, 0b001110#6), (.bgt, 0b001111#6),
    (.ble, 0b010000#6), (.bge, 0b010001#6)],
    ∃ m, (fmt m).opcode = p.2 ∧ ∀ a b v, encodeFields (p.1 a b v) = encodeI m a b v := by
  simp only [List.forall_mem_cons]
  exact ⟨⟨.BEQ, rfl, encodeB_eq_encodeI _⟩, ⟨.BLT, rfl, encodeB_eq_encodeI _⟩,
    ⟨.BGT, rfl, encodeB_eq_encodeI _⟩, ⟨.BLE, rfl, encodeB_eq_encodeI _⟩,
    ⟨.BGE, rfl, encodeB_eq_encodeI _⟩, nofun⟩

theorem immOk14_iff {v : Int} : immOk 14 v = true ↔ -8192 ≤ v ∧ v ≤ 8191 :=
  immOk_iff

theorem encodeJ_ok (m : Mnemonic) {v : Int} (hl : -8192 ≤ v) (hu : v ≤ 8191) :
    encodeJ m v = .ok ((fmt m).opcode ++ BitVec.ofInt 14 v) := by
  rw [encodeJ_eq, if_pos (immOk14_iff.2 ⟨hl, hu⟩)]

theorem encodeJ_error (m : Mnemonic) {v : Int} (h : v < -8192 ∨ 8191 < v) :
    encodeJ m v = .error .valueOutOfRange := by
  rw [encodeJ_eq, if_neg]
  rw [immOk14_iff]
  omega

/-! ### Completion, errors and the frame -/

/-- Settles O30: format R forms the word of indices in range. -/
theorem rTypeInstructionsComplete : Obligations.RTypeInstructionsComplete := by
  rintro ⟨mk, o⟩ hp s d a b hf hd ha hb
  obtain ⟨m, rfl, datapath⟩ := rTypeRow_encodeFields _ hp
  exact exec_of_encodeFields_ok hf ((datapath d a b).trans (encodeR_ok m hd ha hb))

/-- Settles O31: format I forms the word of operands in range. -/
theorem iTypeInstructionsComplete : Obligations.ITypeInstructionsComplete := by
  rintro ⟨mk, o⟩ hp s d a v hf hd ha hl hu
  obtain ⟨m, rfl, datapath⟩ := iTypeRow_encodeFields _ hp
  exact exec_of_encodeFields_ok hf ((datapath d a v).trans (encodeI_ok m hd ha hl hu))

/-- Settles O32: format LS forms the word of operands in range. -/
theorem loadStoreInstructionsComplete : Obligations.LoadStoreInstructionsComplete := by
  rintro ⟨mk, o⟩ hp s r v hf hr hl hu
  obtain ⟨m, rfl, datapath⟩ := loadStoreRow_encodeFields _ hp
  exact exec_of_encodeFields_ok hf ((datapath r v).trans (encodeLS_ok m hr hl hu))

/-- Settles O33: format J forms the word of an offset in range. -/
theorem jumpInstructionCompletes : Obligations.JumpInstructionCompletes :=
  fun _ _ hf hl hu => exec_of_encodeFields_ok hf (encodeJ_ok .JUMP hl hu)

/-- Settles O34: format B forms the word of operands in range. -/
theorem branchInstructionsComplete : Obligations.BranchInstructionsComplete := by
  rintro ⟨mk, o⟩ hp s a b v hf ha hb hl hu
  obtain ⟨m, rfl, datapath⟩ := branchRow_encodeFields _ hp
  exact exec_of_encodeFields_ok hf ((datapath a b v).trans (encodeI_ok m ha hb hl hu))

/-- Settles O35: the datapath of an ill-formed instruction answers the one error. -/
theorem outOfRangeOperandsTakeTheError : Obligations.OutOfRangeOperandsTakeTheError := by
  intro i s hf ill
  rw [exec_eq_deliver, encodeFields_error_iff.2 ⟨ill, rfl⟩, deliver_error hf]
  rfl

/-- Settles O37: the two updates a meaning can answer, field by field. -/
theorem instructionsChangeOnlyThis : Obligations.InstructionsChangeOnlyThis := by
  intro i s t h
  obtain ⟨hf, ⟨w, hw, rfl⟩ | ⟨k, hk, rfl⟩⟩ := exec_next h
  · exact ⟨hf, .inl ⟨w, hw, rfl, rfl, hf, rfl⟩⟩
  · exact ⟨hf, .inr ⟨k, hk, rfl, rfl, rfl, rfl⟩⟩

end Sys2Proof
end

section
/-! PROOFS. Lines of classes J and B (R130 to R140): the positions read left to right, then the field
datapath. Class B reads the positions of class I and shares its datapath. -/

namespace Sys2Proof

open Sys2Proof.Machine

/-- Everything a JUMP line does (R130). -/
theorem encodeLine_of_jump {l : Line} (hl : lookup (tokens l) = .ok .JUMP) : encodeLine l = (do
    let v ← immAt (tokens l) 1
    (encodeJ .JUMP v).map fun w => (w, hex w)) := by
  rw [encodeLine, parseLine_of_lookup hl, parseOperands, parseJ]
  cases immAt (tokens l) 1 <;> rfl

theorem immAt_missing {toks : List Line} {j : Nat} (h : toks.length ≤ j) :
    immAt toks j = .error .operandCountMismatch := by
  rw [immAt, List.getElem?_eq_none h]

/-- The value of a format J word as R131 writes it, over the integers. -/
theorem catJ_toNat_cast (v : Int) :
    ((0b001100#6 ++ BitVec.ofInt 14 v : Word).toNat : Int) = 196608 + v % 16384 := by
  rw [catJ_toNat]
  push_cast
  rw [Int.toNat_of_nonneg (Int.emod_nonneg v (by decide))]

/-- Settles O28: each clause of a line is the JUMP equation, followed to the reading that fails or on to
format J. -/
theorem jumpLines : Obligations.JumpLines := by
  refine ⟨fun l hl => ?line, fun _ _ _ => exec_completes_idx, by decide, by decide⟩
  case line =>
    have line := encodeLine_of_jump hl
    have failing : ∀ k, immAt (tokens l) 1 = .error k → encodeLine l = .error k := by
      intro k h1
      rw [line, h1]
      rfl
    refine ⟨fun short => failing _ (immAt_missing short), failing, fun imm h1 => ?word⟩
    case word =>
      have encoded : encodeLine l = (encodeJ .JUMP imm).map fun w => (w, hex w) := by
        rw [line, h1]
        rfl
      rw [encoded]
      constructor
      · rintro ⟨hl, hu⟩
        refine ⟨_, ?_, rfl, catJ_toNat_cast imm⟩
        rw [encodeJ_ok _ hl hu]
        rfl
      · intro h
        rw [encodeJ_error _ h]
        rfl

/-- The mnemonics of class B, with their opcodes. -/
theorem branchRow_fmt : ∀ p ∈ [(Mnemonic.BEQ, 0b001101#6), (.BLT, 0b001110#6), (.BGT, 0b001111#6),
    (.BLE, 0b010000#6), (.BGE, 0b010001#6)], fmt p.1 = ⟨p.2, .B⟩ := by
  decide

/-- Settles O29: each clause of a line is the equation of such a line, followed to the reading that fails
or through all three to the datapath. -/
theorem branchLines : Obligations.BranchLines := by
  refine ⟨?lines, fun _ _ _ _ _ _ _ => exec_completes_idx, by decide, by decide, by decide, by decide,
    by decide, by decide⟩
  case lines =>
    rintro ⟨m, o⟩ hp l hl
    have hfmt : fmt m = ⟨o, .B⟩ := branchRow_fmt _ hp
    obtain rfl : (fmt m).opcode = o := by rw [hfmt]
    have line := encodeLine_of_positionsRRI (by rw [positions, hfmt]; rfl) hl
    refine ⟨fun k h1 => by rw [line, h1]; rfl, fun r1 k h1 h2 => by rw [line, h1, h2]; rfl,
      fun r1 r2 k h1 h2 h3 => by rw [line, h1, h2, h3]; rfl, fun r1 r2 imm h1 h2 h3 => ?word⟩
    case word =>
      have encoded : encodeLine l = (encodeI m r1 r2 imm).map fun w => (w, hex w) := by
        rw [line, h1, h2, h3]
        rfl
      rw [encoded]
      constructor
      · rintro ⟨ha, hb, hl, hu⟩
        refine ⟨_, ?_, rfl, catRRI_toNat_cast _ ha hb imm⟩
        rw [encodeI_ok m ha hb hl hu]
        rfl
      · intro h
        rw [encodeI_error m h]
        rfl

end Sys2Proof
end

section
/-! PROOFS. The sequencer (R10, R15, R22, R181, R200): what a step answers, the invariant of a run, the end
of every run, and the ports. -/

namespace Sys2Proof

open Sys2Proof.Machine

/-! ### One step -/

theorem step_emits {s : State} {l h : Line} {rest : List Line} {w : Word} (hf : s.fault = none)
    (hi : s.input = l :: rest) (he : encodeLine l = .ok (w, h)) : step s = .next
      { idx := s.idx + 1, out := s.out ++ [h], fault := none, input := rest } := by
  rw [step_line hi, lineWord_ok he, deliver_ok hf, emit_eq hf, ← encodeLine_hex he, hi, List.tail_cons]

theorem step_raises {s : State} {l : Line} {rest : List Line} {k : ErrorKind} (hf : s.fault = none)
    (hi : s.input = l :: rest) (he : encodeLine l = .error k) : step s = .next
      { idx := s.idx, out := s.out, fault := some ⟨k, s.idx⟩, input := s.input } := by
  rw [step_line hi, lineWord_error he, deliver_error hf]
  rfl

theorem step_of_parse {s : State} {l : Line} {rest : List Line} {i : Instr} (hi : s.input = l :: rest)
    (hp : parseLine l = .ok i) : step s = exec i s := by
  rw [step_line hi, exec_eq_deliver, lineWord, encodeLine_of_parse hp]
  cases encodeFields i <;> rfl

theorem exists_step_next {s : State} (hf : s.fault = none) (hi : s.input ≠ []) :
    ∃ t, step s = .next t := by
  obtain ⟨l, rest, hi⟩ := List.exists_cons_of_ne_nil hi
  cases he : encodeLine l with
  | ok p => exact ⟨_, step_emits hf hi he⟩
  | error k => exact ⟨_, step_raises hf hi he⟩

/-- The three answers of a step, by the two fields that decide which. -/
theorem step_cases (s : State) :
    (∃ e, s.fault = some e ∧ step s = .fault (.runAborted e.kind e.index)) ∨
    (s.fault = none ∧ s.input = [] ∧ step s = .refused .noLinePresented) ∨
    (s.fault = none ∧ s.input ≠ [] ∧ ∃ t, step s = .next t) := by
  cases hf : s.fault with
  | some e => exact .inl ⟨e, rfl, step_faulted hf⟩
  | none =>
    by_cases hi : s.input = []
    · exact .inr (.inl ⟨rfl, hi, step_noLine hf hi⟩)
    · exact .inr (.inr ⟨rfl, hi, exists_step_next hf hi⟩)

/-- Settles O40: a step delivers what the parsed instruction's meaning delivers. -/
theorem stepRunsTheDecodedInstruction : Obligations.StepRunsTheDecodedInstruction :=
  fun _ _ _ _ => step_of_parse

/-- Settles O41: the two results of a line, and a step's need of a state without an error. -/
theorem sequencerStep : Obligations.SequencerStep :=
  ⟨fun _ _ _ hf hi => ⟨fun _ _ => step_emits hf hi, fun _ => step_raises hf hi⟩,
    fun _ _ hf h => hf (step_next h).1⟩

/-- Settles O39: reset reads nothing of the state, and `deliver` answers no state once an error is
recorded. -/
theorem resetStartsAnIndependentRun : Obligations.ResetStartsAnIndependentRun := by
  refine ⟨fun _ _ => ⟨rfl, rfl, rfl, rfl⟩, fun _ _ _ _ => rfl, fun s e he => ⟨step_faulted he, ?_⟩⟩
  intro i
  rw [exec_eq_deliver, deliver_faulted he]

/-- Settles O45: emitting consumes the one line it counts, taking an error consumes and counts none. -/
theorem linesAreConsumedInOrder : Obligations.LinesAreConsumedInOrder := by
  intro s t h
  obtain ⟨-, l, rest, hi, ⟨w, -, rfl⟩ | ⟨k, -, rfl⟩⟩ := step_next h
  · simp [hi]
    omega
  · simp

/-- Settles O48: only the line's result decides between the two updates. -/
theorem encodingHasNoHistory : Obligations.EncodingHasNoHistory := by
  intro s s' line rest rest' hf hf' hi hi'
  cases he : encodeLine line with
  | ok p =>
    exact .inl ⟨p.2, _, _, step_emits hf hi he, step_emits hf' hi' he, rfl, rfl, rfl, rfl⟩
  | error k =>
    exact .inr ⟨k, _, _, step_raises hf hi he, step_raises hf' hi' he, rfl, rfl, rfl, rfl⟩

/-! ### The invariant of a run (R32, R39, R150, R176, R179) -/

theorem isOutputLine_hex {w : Word} (h : w.toNat ≤ 0x47FFF) : isOutputLine (hex w) = true := by
  have zero_to_four : ∀ c ∈ ascii "01234", c.toNat ≤ 52 := by decide
  obtain ⟨c, rest, hw, hc⟩ := hex_head_mem_zeroToFour h
  have upper : (hex w).all isUpperHex = true := List.all_eq_true.2 fun c => isUpperHex_of_mem_hex
  have first : (hex w).head?.any (fun c => decide (c.toNat ≤ 52)) = true := by
    simp [hw, zero_to_four c hc]
  rw [isOutputLine, hex_length, upper, first]
  rfl

theorem isOutputLine_of_encodeLine {l h : Line} {w : Word} (he : encodeLine l = .ok (w, h)) :
    isOutputLine h = true := by
  obtain ⟨i, hi⟩ := exists_encodeFields_of_encodeLine he
  rw [encodeLine_hex he]
  exact isOutputLine_hex (produced_toNat_le hi)

theorem inv_emit {s : State} {l : Line} {w : Word} (inv : s.Inv) (hf : s.fault = none)
    (he : encodeLine l = .ok (w, hex w)) : (emit w s).Inv where
  count := by simp [inv.count]
  lines := by
    intro h hm
    rw [emit_out, List.mem_append, List.mem_singleton] at hm
    obtain hm | rfl := hm
    · exact inv.lines h hm
    · exact isOutputLine_of_encodeLine he
  fault := by simp [hf]

theorem inv_raiseError {s : State} {l : Line} {rest : List Line} {k : ErrorKind} (inv : s.Inv)
    (hi : s.input = l :: rest) (he : encodeLine l = .error k) : (raiseError k s).Inv where
  count := inv.count
  lines := inv.lines
  fault := by
    rintro _ ⟨⟩
    exact ⟨rfl, fun hk => encodeLine_ne_ioFailure l (hk ▸ he), l, rest, hi, he⟩

/-- Settles O43: both updates keep the invariant. -/
theorem stepKeepsTheInvariant : Obligations.StepKeepsTheInvariant := by
  intro s t inv h
  obtain ⟨hf, l, rest, hi, ⟨w, hw, rfl⟩ | ⟨k, hk, rfl⟩⟩ := step_next h
  · exact inv_emit inv hf hw
  · exact inv_raiseError inv hi hk

theorem inv_startRun (lines : List Line) (s : State) : (startRun lines s).Inv where
  count := rfl
  lines := nofun
  fault := nofun

/-- Settles O44: the state after reset is that of a run over no lines. -/
theorem resetMeetsTheInvariant : Obligations.ResetMeetsTheInvariant :=
  ⟨inv_startRun [] State.reset, inv_startRun⟩

/-! ### The end of a run (R22, R208) -/

/-- From every state, one step per line left and one more lead to an end. -/
theorem run_ends (s : State) : core.run (s.input.length + 1) s = .refused .noLinePresented ∨
    ∃ k n, core.run (s.input.length + 1) s = .fault (.runAborted k n) := by
  cases hf : s.fault with
  | some e => exact .inr ⟨_, _, run_fault (step_faulted hf) _⟩
  | none =>
    cases hi : s.input with
    | nil => exact .inl (run_refused (step_noLine hf hi) _)
    | cons l rest =>
      cases he : encodeLine l with
      | error k =>
        rw [List.length_cons, run_next (step_raises hf hi he)]
        exact .inr ⟨_, _, run_fault (step_faulted rfl) _⟩
      | ok p =>
        have shorter : rest.length < s.input.length := by rw [hi, List.length_cons]; omega
        rw [List.length_cons, run_next (step_emits hf hi he)]
        exact run_ends { idx := s.idx + 1, out := s.out ++ [p.2], fault := none, input := rest }
termination_by s.input.length

/-- Settles O42: which of its three answers a step gives, and the bound on every run. -/
theorem everyRunEnds : Obligations.EveryRunEnds := by
  refine ⟨fun s => ?_, fun s => ?_, fun s k n => ?_, run_ends⟩
  all_goals obtain ⟨⟨k', n'⟩, hf, hs⟩ | ⟨hf, hi, hs⟩ | ⟨hf, hi, t, hs⟩ := step_cases s
  all_goals simp [*]

/-! ### The ports (R160, R170) -/

/-- Settles O49: a line fails with one of the four kinds that have a code of their own. -/
theorem portsOfATransaction : Obligations.PortsOfATransaction := by
  constructor
  · intro l w h he
    rw [transact, he]
    rfl
  · intro l k he
    have raised : k ≠ .ioFailure := fun hk => encodeLine_ne_ioFailure l (hk ▸ he)
    rw [transact, he]
    refine ⟨rfl, ?_⟩
    cases k
    case ioFailure => exact absurd rfl raised
    all_goals simp [errOut, errorCode]

end Sys2Proof
end

section
/-! PROOFS. The closed form of a run is the sequencer (R158): the lines before the first failing one are
consumed one step each; the next step takes the error, and there is none after it. -/

namespace Sys2Proof

open Sys2Proof.Machine

/-! ### When some lines encode, and to what -/

/-- Each line encodes, to the text at its place in the output. -/
def EncodesTo : List Line → List Line → Prop := List.Forall₂ fun l h => ∃ w, encodeLine l = .ok (w, h)

theorem encodeRunFrom_ok_iff_encodesTo {i : Nat} {lines out : List Line} :
    encodeRunFrom i lines = .ok out ↔ EncodesTo lines out := by
  induction lines generalizing i out with
  | nil => simp [encodeRunFrom, EncodesTo, eq_comm]
  | cons l ls ih =>
    rw [encodeRunFrom, EncodesTo, List.forall₂_cons_left_iff]
    cases encodeLine l with
    | error k => simp
    | ok p => simp [map_ok_iff, ih, EncodesTo, Prod.ext_iff, eq_comm (b := out)]

theorem encodeRun_ok_iff_encodesTo {lines out : List Line} :
    encodeRun lines = .ok out ↔ EncodesTo lines out :=
  encodeRunFrom_ok_iff_encodesTo

/-- A run fails where the first line after some that encode fails. -/
theorem encodeRun_error_iff_take {lines : List Line} {k : ErrorKind} {i : Nat} :
    encodeRun lines = .error ⟨k, i⟩ ↔ ∃ l out, lines[i]? = some l ∧ encodeLine l = .error k ∧
      encodeRun (lines.take i) = .ok out := by
  rw [encodeRun_error_iff]
  constructor
  · rintro ⟨⟨l, hl, he⟩, earlier⟩
    cases hr : encodeRun (lines.take i) with
    | ok out => exact ⟨l, out, hl, he, rfl⟩
    | error e =>
      obtain ⟨⟨l', hl', he'⟩, -⟩ := encodeRun_error_iff.1 hr
      have hj : e.index < i := (List.getElem?_eq_some_iff.1 hl').1.trans_le (List.length_take_le i lines)
      rw [List.getElem?_take_of_lt hj] at hl'
      obtain ⟨r, hr⟩ := earlier _ l' hj hl'
      cases he'.symm.trans hr
  · rintro ⟨l, out, hl, he, hr⟩
    refine ⟨⟨l, hl, he⟩, fun j l' hj hl' => ?_⟩
    obtain ⟨w, h, -, hw⟩ := (encodeRun_ok_iff.1 hr).2 j l' (by rw [List.getElem?_take_of_lt hj, hl'])
    exact ⟨_, hw⟩

/-! ### The sequencer over lines that encode -/

theorem run_add {m : Nat} {s t : State} (h : core.run m s = .next t) (n : Nat) :
    core.run (m + n) s = core.run n t := by
  induction m generalizing s with
  | zero => cases h; rw [Nat.zero_add]
  | succ m ih =>
    rw [Nat.add_right_comm]
    cases hs : step s with
    | next u => rw [run_next hs] at h ⊢; exact ih h
    | fault r => rw [run_fault hs] at h; cases h
    | refused r => rw [run_refused hs] at h; cases h

theorem run_one (s : State) : core.run 1 s = step s := by
  cases hs : step s with
  | next t => exact run_next hs 0
  | fault r => exact run_fault hs 0
  | refused r => exact run_refused hs 0

/-- Lines that encode are consumed one step each, their texts appended. -/
theorem run_of_encodesTo {ls out rest : List Line} {s : State} (enc : EncodesTo ls out)
    (hf : s.fault = none) (hi : s.input = ls ++ rest) : core.run ls.length s = .next
      { idx := s.idx + ls.length, out := s.out ++ out, fault := none, input := rest } := by
  induction enc generalizing s with
  | nil => exact congrArg Host.Outcome.next (State.eq_of_fields rfl (by simp) hf hi)
  | cons hl _ ih =>
    obtain ⟨w, hw⟩ := hl
    rw [List.length_cons, run_next (step_emits hf hi hw), ih rfl rfl]
    simp [Nat.add_assoc, Nat.add_comm 1]

/-- The state in which the sequencer reads line `i`, the earlier ones having encoded to `out`. -/
def runAt (lines out : List Line) (i : Nat) : State :=
  { idx := i, out := out, fault := none, input := lines.drop i }

theorem run_startRun_take {lines out : List Line} {i : Nat} (hi : i ≤ lines.length)
    (h : encodeRun (lines.take i) = .ok out) (s : State) :
    core.run i (startRun lines s) = .next (runAt lines out i) := by
  have consumed := run_of_encodesTo (s := startRun lines s) (rest := lines.drop i)
    (encodeRun_ok_iff_encodesTo.1 h) rfl (List.take_append_drop i lines).symm
  rwa [List.length_take_of_le hi, startRun_idx, startRun_out, Nat.zero_add, List.nil_append] at consumed

/-- The next step takes an error exactly when it is the next line's. -/
theorem run_startRun_raises_iff {lines out : List Line} {i : Nat} {l : Line} {k : ErrorKind}
    (hl : lines[i]? = some l) (h : encodeRun (lines.take i) = .ok out) (s : State) :
    core.run (i + 1) (startRun lines s) =
      .next { idx := i, out := out, fault := some ⟨k, i⟩, input := lines.drop i } ↔
    encodeLine l = .error k := by
  obtain ⟨hi, rfl⟩ := List.getElem?_eq_some_iff.1 hl
  have head : (runAt lines out i).input = lines[i] :: lines.drop (i + 1) := List.drop_eq_getElem_cons hi
  rw [run_add (run_startRun_take hi.le h s), run_one]
  cases he : encodeLine lines[i] with
  | ok p =>
    rw [step_emits rfl head he]
    exact ⟨fun h => (nomatch congrArg State.fault (Host.Outcome.next.inj h)), nofun⟩
  | error k' =>
    rw [step_raises rfl head he]
    exact ⟨fun h => by cases h; rfl, fun h => by cases h; rfl⟩

/-! ### The two results of a run -/

theorem run_of_encodeRun_ok {lines out : List Line} (h : encodeRun lines = .ok out) (s : State) :
    core.run lines.length (startRun lines s) =
      .next { idx := lines.length, out := out, fault := none, input := [] } := by
  rw [run_startRun_take le_rfl (by rwa [List.take_length]) s, runAt, List.drop_length]

theorem encodeRun_error_iff_run {lines : List Line} {k : ErrorKind} {i : Nat} (s : State) :
    encodeRun lines = .error ⟨k, i⟩ ↔ i < lines.length ∧ ∃ out,
      encodeRun (lines.take i) = .ok out ∧ core.run (i + 1) (startRun lines s) =
        .next { idx := i, out := out, fault := some ⟨k, i⟩, input := lines.drop i } := by
  rw [encodeRun_error_iff_take]
  constructor
  · rintro ⟨l, out, hl, he, hr⟩
    exact ⟨(List.getElem?_eq_some_iff.1 hl).1, out, hr, (run_startRun_raises_iff hl hr s).2 he⟩
  · rintro ⟨hi, out, hr, hrun⟩
    have hl := List.getElem?_eq_getElem hi
    exact ⟨_, out, hl, (run_startRun_raises_iff hl hr s).1 hrun, hr⟩

theorem run_after_error {lines : List Line} {k : ErrorKind} {i n : Nat}
    (h : encodeRun lines = .error ⟨k, i⟩) (hn : i + 2 ≤ n) (s : State) :
    core.run n (startRun lines s) = .fault (.runAborted k i) := by
  obtain ⟨-, out, -, failed⟩ := (encodeRun_error_iff_run s).1 h
  obtain ⟨j, rfl⟩ := Nat.exists_eq_add_of_le hn
  rw [show i + 2 + j = i + 1 + (j + 1) by omega, run_add failed, run_fault (step_faulted rfl)]

/-- A failing run does not end with every line consumed and no error. -/
theorem run_length_of_error {lines out : List Line} {e : ErrorRecord}
    (h : encodeRun lines = .error e) (s : State) : core.run lines.length (startRun lines s) ≠
      .next { idx := lines.length, out := out, fault := none, input := [] } := by
  obtain ⟨hi, _, -, failed⟩ := (encodeRun_error_iff_run s).1 h
  intro ended
  by_cases last : lines.length = e.index + 1
  · rw [last, failed] at ended
    cases congrArg State.fault (Host.Outcome.next.inj ended)
  · cases ended.symm.trans (run_after_error h (by omega) s)

/-- Settles O46: the sequencer's answer is determined, so each direction follows from the closed form's
two results. -/
theorem encodeRunIsTheSequencer : Obligations.EncodeRunIsTheSequencer := by
  refine fun lines s => ⟨fun out => ⟨fun h => run_of_encodeRun_ok h s, fun ended => ?ok⟩,
    fun k i => encodeRun_error_iff_run s, fun k i h n hn => run_after_error h hn s⟩
  case ok =>
    cases hr : encodeRun lines with
    | error e => exact absurd ended (run_length_of_error hr s)
    | ok out' =>
      cases ended.symm.trans (run_of_encodeRun_ok hr s)
      rfl

end Sys2Proof
end
